-- ==== Sys2Proof/Word.lean ====
section
/-! DEFINITION. The two word types of the hardware: `u8` and `u16` of spec rule R5. -/

namespace Sys2Proof

/-- `u8` (R5): a memory cell, the registers A, X and Y, an opcode, an operand byte. -/
abbrev Byte := BitVec 8

/-- `u16` (R5): an address, PC, SP, a word moved by `FetchWord` or `WriteWord`. -/
abbrev Word := BitVec 16

end Sys2Proof
end

