-- ==== Sys2Proof/Syntax.lean ====
section
/-! DEFINITION. The instructions: one constructor per row of the opcode map (R53), holding the operand R52 assembles. -/

namespace Sys2Proof

/-- The whole instruction set (R53). -/
inductive Instr where
  /-- `LDA #imm`, opcode 0xA9, format IMM (R86). -/
  | ldaImm (imm8 : Byte)
  /-- `LDA zp`, opcode 0xA5, format ZP (R87). -/
  | ldaZp (zp8 : Byte)
  /-- `LDA zp,X`, opcode 0xB5, format ZPX (R88). -/
  | ldaZpX (zp8 : Byte)
  /-- `JSR abs`, opcode 0x20, format ABS; `target` is `hi8 ## lo8` (R52, R95). -/
  | jsrAbs (target : Word)
  deriving DecidableEq, Repr

end Sys2Proof
end

