-- ==== Sys2Proof/WellFormed.lean ====
section
/-! DEFINITION. Which instruction terms the hardware can hold.
R54: "Operand bytes have no illegal values: every `u8` is a legal `imm8`, `zp8`, `lo8` and `hi8`", and the operand
widths are in the types of the constructors, so there is nothing left for the check to refuse. -/

namespace Sys2Proof

/-- Every operand value is legal (R54). -/
def Instr.wellFormed : Instr → Bool
  | .ldaImm _ => true
  | .ldaZp _ => true
  | .ldaZpX _ => true
  | .jsrAbs _ => true

end Sys2Proof
end

