-- ==== Sys2Proof/Decode.lean ====
section
/-! DEFINITION. The byte order, the opcode map, the decoder and the encoder (`spec/30_encoding.md`). -/

namespace Sys2Proof

/-! ### Byte order (R5, R37, R89) -/

/-- `w[7:0]`. -/
def lowByte (w : Word) : Byte := w.extractLsb' 0 8

/-- `w[15:8]`. -/
def highByte (w : Word) : Byte := w.extractLsb' 8 8

/-- `hi ## lo`, the word `hi * 256 + lo`. -/
def joinBytes (hi lo : Byte) : Word := hi ++ lo

/-! ### The opcode map (R53) -/

/-- What the handler of an opcode does first: it fetches its operand with one `FetchByte` or one `FetchWord`
(R55: the opcode byte alone decides the instruction and its length). -/
inductive Handler where
  /-- Formats IMM, ZP and ZPX: one operand byte. -/
  | fetchesByte (instr : Byte → Instr)
  /-- Format ABS: one operand word, low byte first. -/
  | fetchesWord (instr : Word → Instr)

/-- The dispatch table, complete (R53). -/
def dispatchTable : List (Byte × Handler) :=
  [ (0xA9#8, .fetchesByte .ldaImm),
    (0xA5#8, .fetchesByte .ldaZp),
    (0xB5#8, .fetchesByte .ldaZpX),
    (0x20#8, .fetchesWord .jsrAbs) ]

/-- The mapping from opcode byte to handler; it reads no other state (R69). `none` is an illegal opcode (R54). -/
def dispatch (opcode : Byte) : Option Handler :=
  (dispatchTable.find? (fun row => row.1 == opcode)).map (fun row => row.2)

/-! ### Decoder -/

/-- Why a byte sequence is no instruction. -/
inductive DecodeError where
  /-- There is no opcode byte. -/
  | noBytes
  /-- The opcode matches no row of the dispatch table (R54). -/
  | illegalOpcode (opcode : Byte)
  /-- The sequence ends inside the operand of a legal opcode. -/
  | truncated (opcode : Byte)
  deriving DecidableEq, Repr

/-- The instruction at the head of a byte sequence, with the bytes after it (R50 to R53). -/
def decode : List Byte → Except DecodeError (Instr × List Byte)
  | [] => .error .noBytes
  | opcode :: operands =>
    match dispatch opcode with
    | none => .error (.illegalOpcode opcode)
    | some (.fetchesByte instr) =>
      match operands with
      | operand :: rest => .ok (instr operand, rest)
      | [] => .error (.truncated opcode)
    | some (.fetchesWord instr) =>
      match operands with
      | lo :: hi :: rest => .ok (instr (joinBytes hi lo), rest)
      | _ => .error (.truncated opcode)

/-! ### Encoder -/

/-- The bytes of an instruction in ascending address order, written from the formats of R51 and the opcodes of R53. -/
def encode : Instr → List Byte
  | .ldaImm imm8 => [0xA9#8, imm8]
  | .ldaZp zp8 => [0xA5#8, zp8]
  | .ldaZpX zp8 => [0xB5#8, zp8]
  | .jsrAbs target => [0x20#8, lowByte target, highByte target]

/-- The length of an instruction in bytes (R50, R53). -/
def Instr.length : Instr → Nat
  | .ldaImm _ => 2
  | .ldaZp _ => 2
  | .ldaZpX _ => 2
  | .jsrAbs _ => 3

/-! ### Words of the opcode table -/

/-- The three bytes, lowest address first, of an instruction whose bits are `w`, numbered from the least significant
bit of the first byte; the bits from `nbits` on are 0. Three bytes is the longest instruction (R50). -/
def tableBytes (nbits w : Nat) : List Byte :=
  let bits := w % 2 ^ nbits
  [BitVec.ofNat 8 bits, BitVec.ofNat 8 (bits / 256), BitVec.ofNat 8 (bits / 65536)]

/-- The instruction the decoder reads from a word of `spec/opcode_table.json`. -/
def decodeTableWord (nbits w : Nat) : Option Instr :=
  match decode (tableBytes nbits w) with
  | .ok (i, _) => some i
  | .error _ => none

end Sys2Proof
end

