-- ==== Sys2Proof/Config.lean ====
section
/-! DEFINITION. The sizes and reset addresses that the spec fixes (R4).
The spec leaves no value free, so there is no opaque constant here (`NOTES.md`, Assumptions). -/

namespace Sys2Proof.Config

/-- `MEM_CELLS` (R4): the number of byte cells. -/
def memCells : Nat := 65536

/-- `RESET_PC` (R4, R26): the address of the first opcode after `Reset`. -/
def resetPC : Word := 0xFFFC#16

/-- `RESET_SP` (R4, R26). -/
def resetSP : Word := 0x0100#16

/-- The last cell, at which no word access may start (R38, R40). -/
def lastAddress : Word := 0xFFFF#16

end Sys2Proof.Config
end

