-- ==== Sys2Proof/Machine/State.lean ====
section
/-! DEFINITION. The complete state of the block (R10), its value after reset (R26), and the reasons a step can stop.
Registers and flags carry the spec's own names. -/

namespace Sys2Proof.Machine

/-- The 65536 byte cells of the MemoryBus (R30), as the cells that do not hold 0x00: (address, byte) pairs in the
canonical form `Memory.wf` of `Machine/Ops.lean`. A cell that is not listed holds 0x00 (R26, R36). -/
abbrev Memory := List Host.Cell

/-- The complete state (R10). The seven flags are seven separate bits with no packed form (R19, R21). -/
structure State where
  /-- Program counter (R14). -/
  PC : Word
  /-- Stack cursor holding a full memory address (R17). -/
  SP : Word
  /-- Accumulator (R12). -/
  A : Byte
  /-- General register, read by LDA zp,X and written by no instruction (R12, R13). -/
  X : Byte
  /-- General register, read and written by no instruction (R12, R13). -/
  Y : Byte
  /-- Carry: inert (R20). -/
  C : Bool
  /-- Zero: set by the loads (R20, R85). -/
  Z : Bool
  /-- Interrupt-disable: inert, there are no interrupts (R20, R106). -/
  I : Bool
  /-- Decimal: inert (R20). -/
  D : Bool
  /-- Break: inert (R20). -/
  B : Bool
  /-- Overflow: inert (R20). -/
  V : Bool
  /-- Negative: set by the loads (R20, R85). -/
  N : Bool
  /-- The memory (R30). -/
  mem : Memory
  /-- The cycle budget of the current `Execute` call, a signed integer of no stated width (R24, log entry 5). -/
  cyc : Int
  deriving DecidableEq, Repr

/-- The state after `Reset` (R26). `cyc` has no value outside an `Execute` call and `Reset` does not touch it: the 0 here
is a DESIGN CHOICE (log entry 2); `execute` overwrites it before anything reads it. -/
def State.reset : State where
  PC := Config.resetPC
  SP := Config.resetSP
  A := 0x00#8
  X := 0x00#8
  Y := 0x00#8
  C := false
  Z := false
  I := false
  D := false
  B := false
  V := false
  N := false
  mem := []
  cyc := 0

/-- The two word operations an AddressingFault can name (R101). -/
inductive WordOp where
  | fetchWord
  | writeWord
  deriving DecidableEq, Repr

/-- The faults of R100. Each ends the `Execute` call that met it (R103); `left` is the state the host then sees, with
every change made before the fault and none after it. -/
inductive Fault where
  /-- R101. Raised by `FetchWord` when PC = 0xFFFF and by `WriteWord` when its address is 0xFFFF; only JSR uses either.
  Safe: the machine stops where the spec says `Execute` ends. -/
  | addressingFault (op : WordOp) (addr : Word) (left : State)
  /-- R102. Raised by the instruction fetch when the opcode byte is in no row of the dispatch table; `pc` is the address
  that byte came from. Safe: the machine stops where the spec says `Execute` ends. -/
  | decodeFault (opcode : Byte) (pc : Word) (left : State)
  deriving DecidableEq, Repr

/-- The refusals of the model. No instruction of this model is refused. -/
inductive Refusal where
  /-- Raised by an arm of `exec` whose instruction has no meaning yet (no arm is in that case). Safe: nothing is claimed
  about the instruction. -/
  | notModelled (mnemonic : String)
  deriving DecidableEq, Repr

end Sys2Proof.Machine
end

