-- ==== Sys2Proof/Machine/Ops.lean ====
section
/-! DEFINITION. The operations the meanings share: the memory store, the MemoryBus operations (`spec/20_memory.md`),
cycle charges (R128), raising a fault (R103), and the three fetch and read primitives (R65 to R67). -/

namespace Sys2Proof.Machine

/-! ### The store -/

/-- What a cell that is not listed holds: `Init` zeroes every cell (R36), and so does `Reset` (R26). -/
def Memory.unlisted : Byte := 0x00#8

/-- The canonical form: addresses strictly rising and below `MEM_CELLS`, and no entry that says what an unlisted cell
says. Two memories in this form with the same bytes are the same list. -/
abbrev Memory.wf (m : Memory) : Prop :=
  m.Pairwise (fun c d => c.1 < d.1) ∧ ∀ c ∈ m, c.1 < Config.memCells ∧ c.2 ≠ Memory.unlisted

/-- The byte of cell `a`. -/
def Memory.read : Memory → Nat → Byte
  | [], _ => Memory.unlisted
  | c :: rest, a => if c.1 = a then c.2 else Memory.read rest a

/-- The memory with no entry for cell `a`. -/
def Memory.erase (m : Memory) (a : Nat) : Memory := m.filter (fun c => c.1 != a)

/-- The memory with the entry `(a, v)` placed before the first higher address. -/
def Memory.insert : Memory → Nat → Byte → Memory
  | [], a, v => [(a, v)]
  | c :: rest, a, v => if a < c.1 then (a, v) :: c :: rest else c :: Memory.insert rest a v

/-- The memory with byte `v` in cell `a`; writing what an unlisted cell holds removes the entry. -/
def Memory.write (m : Memory) (a : Nat) (v : Byte) : Memory :=
  if v = Memory.unlisted then m.erase a else (m.erase a).insert a v

/-! ### Sequencing and faults -/

/-- One statement of a pseudocode block after another (R5); a fault abandons what follows (R103). -/
def andThen {α β : Type} (r : Host.Outcome α Fault Refusal) (k : α → Host.Outcome β Fault Refusal) :
    Host.Outcome β Fault Refusal :=
  match r with
  | .next a => k a
  | .fault f => .fault f
  | .refused f => .refused f

/-- `raise F(info)` (R103): the rest of the instruction is abandoned, nothing is saved, pushed or redirected, and the
state at the point of the raise is what the host sees. There is no return from a fault (R104). -/
def raise {α : Type} (fault : State → Fault) (s : State) : Host.Outcome α Fault Refusal :=
  .fault (fault s)

/-- `cyc <- cyc - k` on `int` (R89, R128). -/
def charge (k : Int) (s : State) : State := { s with cyc := s.cyc - k }

/-! ### The MemoryBus -/

/-- `Read(addr)` (R32): a pure lookup without a charge. -/
def memRead (s : State) (addr : Word) : Byte := s.mem.read addr.toNat

/-- `Write(addr, v)` (R33): one cell, without a charge. -/
def memWrite (addr : Word) (v : Byte) (s : State) : State := { s with mem := s.mem.write addr.toNat v }

/-- `WriteWord(addr, w)` (R34): little-endian, 2 cycles; at 0xFFFF it faults before any access and charges nothing. -/
def writeWord (addr w : Word) (s : State) : Host.Outcome State Fault Refusal :=
  if addr = Config.lastAddress then raise (Fault.addressingFault .writeWord addr) s
  else .next (charge 2 (memWrite (addr + 1#16) (highByte w) (memWrite addr (lowByte w) s)))

/-- `MemRead(addr, 2)` (R35): little-endian, no charge; at 0xFFFF it faults before any access. -/
def memReadWord (addr : Word) (s : State) : Host.Outcome Word Fault Refusal :=
  if addr = Config.lastAddress then raise (Fault.addressingFault .fetchWord addr) s
  else .next (joinBytes (memRead s (addr + 1#16)) (memRead s addr))

/-- `Init()` (R36): every cell 0x00, without a charge. -/
def memInit (s : State) : State := { s with mem := [] }

/-! ### Fetch and read primitives -/

/-- `PC <- PC +_16 n` (R16: modulo 2^16, log entry 4). -/
def advancePC (n : Word) (s : State) : State := { s with PC := s.PC + n }

/-- `FetchByte()` (R65): the byte at PC; PC + 1, 1 cycle. -/
def fetchByte (s : State) : Byte × State := (memRead s s.PC, charge 1 (advancePC 1#16 s))

/-- `FetchWord()` (R66): the word at PC; PC + 2, 2 cycles; a fault at PC = 0xFFFF changes neither. -/
def fetchWord (s : State) : Host.Outcome (Word × State) Fault Refusal :=
  andThen (memReadWord s.PC s) fun w => .next (w, charge 2 (advancePC 2#16 s))

/-- `ReadByte(addr)` (R67): the byte at `addr`; 1 cycle, PC untouched. -/
def readByte (addr : Word) (s : State) : Byte × State := (memRead s addr, charge 1 s)

end Sys2Proof.Machine
end

