-- ==== Sys2Proof/Machine/Operands.lean ====
section
/-! DEFINITION. The addressing modes (R52, R90), after the operand has been consumed from the instruction stream.
Immediate: the operand byte is the value. Absolute: the operand word is the jump target. -/

namespace Sys2Proof.Machine

/-- Zero page: `zext_16(zp8)`. -/
def zeroPage (zp8 : Byte) : Word := zp8.zeroExtend 16

/-- Zero page indexed by X: `zext_16(zp8 +_8 X)`; the sum is reduced modulo 256 before it is widened, and its carry is
discarded. -/
def zeroPageX (zp8 : Byte) (s : State) : Word := (zp8 + s.X).zeroExtend 16

/-- Implied stack: the word at SP and SP + 1. -/
def stackSlot (s : State) : Word := s.SP

/-- The return address of JSR: `PC -_16 1` once the whole instruction is consumed, the address of its last byte (R95). -/
def returnAddress (s : State) : Word := s.PC - 1#16

end Sys2Proof.Machine
end

