-- ==== Sys2Proof/Machine/JumpSubroutine.lean ====
section
/-! DEFINITION. Jump to subroutine (`spec/42_jump_subroutine.md`), the only control transfer and the only store.
The meaning starts where the handler has consumed its target (`fetchInstr`, log entry 3). -/

namespace Sys2Proof.Machine

/-- JSR abs (R95): the return address goes to the stack slot as a word, SP rises by one, PC becomes the target, one
additional cycle. With SP = 0xFFFF the store faults and nothing after it happens (R96). -/
def execJsrAbs (target : Word) (s : State) : Host.Outcome State Fault Refusal :=
  andThen (writeWord (stackSlot s) (returnAddress s) s) fun s =>
    .next (charge 1 { s with SP := s.SP + 1#16, PC := target })

end Sys2Proof.Machine
end

