-- ==== Sys2Proof/Machine/Flags.lean ====
section
/-! DEFINITION. The flag computation (R85), the only one of the hardware (R89). -/

namespace Sys2Proof.Machine

/-- `Z := (v == 0)`. -/
def zeroFlag (v : Byte) : Bool := v == 0x00#8

/-- `N := v[7]`. -/
def negativeFlag (v : Byte) : Bool := v.getLsbD 7

/-- `SetZN(v)` (R85): writes Z and N, keeps C, I, D, B and V, and charges nothing. -/
def setZN (v : Byte) (s : State) : State := { s with Z := zeroFlag v, N := negativeFlag v }

end Sys2Proof.Machine
end

