-- ==== Sys2Proof/Machine/LoadAccumulator.lean ====
section
/-! DEFINITION. The three load-accumulator instructions (`spec/41_load_accumulator.md`).
A meaning starts where the handler has consumed its operand (`fetchInstr`, log entry 3). -/

namespace Sys2Proof.Machine

/-- `A <- v; SetZN(A)`. -/
def loadA (v : Byte) (s : State) : State := setZN v { s with A := v }

/-- LDA #imm (R86). -/
def execLdaImm (imm8 : Byte) (s : State) : Host.Outcome State Fault Refusal :=
  .next (loadA imm8 s)

/-- LDA zp (R87). -/
def execLdaZp (zp8 : Byte) (s : State) : Host.Outcome State Fault Refusal :=
  let (v, s) := readByte (zeroPage zp8) s
  .next (loadA v s)

/-- LDA zp,X (R88): one cycle for the index computation, then the read. -/
def execLdaZpX (zp8 : Byte) (s : State) : Host.Outcome State Fault Refusal :=
  let ea := zeroPageX zp8 s
  let (v, s) := readByte ea (charge 1 s)
  .next (loadA v s)

end Sys2Proof.Machine
end

