-- ==== Sys2Proof/Machine/Fetch.lean ====
section
/-! DEFINITION. Fetching one instruction: the opcode, dispatch on it, and the operand the chosen handler consumes first. -/

namespace Sys2Proof.Machine

/-- The first half of `Step` (R69): the opcode is fetched and charged before dispatch, for every byte value; an illegal
opcode faults with its own address (R102); otherwise the handler's operand is consumed by the one `FetchByte` or
`FetchWord` with which R86, R87, R88 and R95 begin. The state that comes with the instruction is the handler's state at
that point. -/
def fetchInstr (s : State) : Host.Outcome (Instr × State) Fault Refusal :=
  let (opcode, s₁) := fetchByte s
  match dispatch opcode with
  | none => raise (Fault.decodeFault opcode s.PC) s₁
  | some (.fetchesByte instr) =>
    let (operand, s₂) := fetchByte s₁
    .next (instr operand, s₂)
  | some (.fetchesWord instr) =>
    andThen (fetchWord s₁) fun (operand, s₂) => .next (instr operand, s₂)

/-- The bytes put at `addr`, `addr + 1`, ... in the order in which `FetchByte` would meet them. -/
def placeBytes : Word → List Byte → State → State
  | _, [], s => s
  | addr, b :: rest, s => placeBytes (addr + 1#16) rest (memWrite addr b s)

end Sys2Proof.Machine
end

