-- ==== Sys2Proof/Machine/Step.lean ====
section
/-! DEFINITION. One instruction from one boundary to the next, and the placing of one instruction at PC. -/

namespace Sys2Proof.Machine

/-- `Step` (R69). The budget is not tested here: R70 tests it in `Execute` (`execute`, log entry 1). -/
def step (s : State) : Host.Outcome State Fault Refusal :=
  andThen (fetchInstr s) fun (i, s) => exec i s

/-- The state with the instruction of a table word stored at PC, as the host stores a program with `Write` (R125). -/
def State.withFetchWord (s : State) (nbits w : Nat) : State := placeBytes s.PC (tableBytes nbits w) s

end Sys2Proof.Machine
end

