-- ==== Sys2Proof/Machine/Execute.lean ====
section
/-! DEFINITION. The execution loop `Execute(cycleBudget)` and its outcome (R70 to R77, R100). -/

namespace Sys2Proof.Machine

/-- What `Execute` returns (R72). -/
inductive ExecuteOutcome where
  | budgetExhausted
  | addressingFault (op : WordOp) (addr : Word)
  | decodeFault (opcode : Byte) (pc : Word)
  deriving DecidableEq, Repr

/-- The numeric labels of R100. -/
def ExecuteOutcome.code : ExecuteOutcome → Nat
  | .budgetExhausted => 0
  | .addressingFault _ _ => 1
  | .decodeFault _ _ => 2

/-- Whether an outcome is a fault: R100 says BudgetExhausted is none. -/
def ExecuteOutcome.isFault : ExecuteOutcome → Bool
  | .budgetExhausted => false
  | .addressingFault _ _ => true
  | .decodeFault _ _ => true

/-- The outcome, the remaining budget returned beside it, and the state the host finds (R72, R103). -/
structure ExecuteResult where
  outcome : ExecuteOutcome
  cyc : Int
  state : State
  deriving DecidableEq, Repr

/-- The state a fault leaves. -/
def faultLeft : Fault → State
  | .addressingFault _ _ left => left
  | .decodeFault _ _ left => left

/-- What a fault records (R101, R102). -/
def faultOutcome : Fault → ExecuteOutcome
  | .addressingFault op addr _ => .addressingFault op addr
  | .decodeFault opcode pc _ => .decodeFault opcode pc

/-- The return of `Execute` at a boundary where the budget is spent (R70). -/
def returnExhausted (s : State) : ExecuteResult := ⟨.budgetExhausted, s.cyc, s⟩

/-- The return of `Execute` on a fault (R70, R103). -/
def returnFault (f : Fault) : ExecuteResult := ⟨faultOutcome f, (faultLeft f).cyc, faultLeft f⟩

/-- The loop of R70 from an instruction boundary, for at most `limit` instructions; `none` if it would run more. -/
def executeWithin : Nat → State → Option ExecuteResult
  | limit, s =>
    if 0 < s.cyc then
      match limit with
      | 0 => none
      | limit + 1 =>
        match step s with
        | .next t => executeWithin limit t
        | .fault f => some (returnFault f)
        | .refused _ => none
    else some (returnExhausted s)

/-- `Execute(b)` (R70). Every instruction costs at least one cycle, so `b` instructions are more than the loop can run
(R74, log entry 8). -/
def execute (b : Int) (s : State) : Option ExecuteResult := executeWithin b.toNat { s with cyc := b }

end Sys2Proof.Machine
end

