-- ==== Sys2Proof/Machine/Session.lean ====
section
/-! DEFINITION. `Reset` (R120) and what the host may do between calls (R6, R125). -/

namespace Sys2Proof.Machine

/-- `Reset()` (R120): defined on every prior state; `cyc` is neither read nor written (R122). -/
def resetCore (s : State) : State :=
  memInit
    { s with
      PC := Config.resetPC, SP := Config.resetSP, A := 0x00#8, X := 0x00#8, Y := 0x00#8,
      C := false, Z := false, I := false, D := false, B := false, V := false, N := false }

/-- The moves of the host that change something (R6). It may also read every register, flag and cell; it has no port
for writing a register or a flag. -/
inductive HostAction where
  /-- MemoryBus `Write` (R33). -/
  | write (addr : Word) (v : Byte)
  /-- `Reset` (R120). -/
  | reset
  /-- `Execute(budget)` (R70). -/
  | execute (budget : Int)
  deriving DecidableEq, Repr

/-- A session as the host sees it. The core latches no fault (R104); the first fault is the model's own record of the
session, kept for good (R104, `93_implementation_defined.md` U11, log entry 10). -/
structure Session where
  core : State
  lastReturn : Option (ExecuteOutcome × Int)
  firstFault : Option ExecuteOutcome
  deriving DecidableEq, Repr

/-- The record of the first fault after an `Execute` that returned `outcome`. -/
def recordFault (firstFault : Option ExecuteOutcome) (outcome : ExecuteOutcome) : Option ExecuteOutcome :=
  match firstFault with
  | some f => some f
  | none => if outcome.isFault then some outcome else none

/-- One move of the host. Registers, flags and memory persist from call to call; the leftover budget does not (R77). -/
def hostAct : HostAction → Session → Option Session
  | .write addr v, h => some { h with core := memWrite addr v h.core }
  | .reset, h => some { h with core := resetCore h.core }
  | .execute budget, h =>
    (execute budget h.core).map fun r =>
      ⟨r.state, some (r.outcome, r.cyc), recordFault h.firstFault r.outcome⟩

end Sys2Proof.Machine
end

