-- ==== Sys2Proof/Safety.lean ====
section
/-! DEFINITION. What a safe run is, and the predicates that claims about whole runs are stated with. -/

namespace Sys2Proof.Safety

open Sys2Proof.Machine

/-- A safe run: `Execute(b)` from `s` returns BudgetExhausted, leaving `t` (R76: a claim names its budget; R104: a fault
is never a successful end). -/
def RunsTo (b : Int) (s t : State) : Prop := ∃ cyc, execute b s = some ⟨.budgetExhausted, cyc, t⟩

/-- The states a host can see in a session from its first `Reset` on (R6, R27, R77): whatever was there before the
`Reset`, whatever bytes the host writes, whatever budgets it gives. -/
inductive Reachable : State → Prop where
  | reset (s : State) : Reachable (resetCore s)
  | write (s : State) (addr : Word) (v : Byte) : Reachable s → Reachable (memWrite addr v s)
  | execute (s : State) (b : Int) (r : ExecuteResult) :
      Reachable s → Machine.execute b s = some r → Reachable r.state

/-- R13 and R20: what no instruction writes still holds its reset value. -/
def InertClear (s : State) : Prop :=
  s.X = 0x00#8 ∧ s.Y = 0x00#8 ∧ s.C = false ∧ s.I = false ∧ s.D = false ∧ s.B = false ∧ s.V = false

/-- The registers and flags that no instruction writes are the same in both states (R13, R20). -/
def SameInert (s t : State) : Prop :=
  t.X = s.X ∧ t.Y = s.Y ∧ t.C = s.C ∧ t.I = s.I ∧ t.D = s.D ∧ t.B = s.B ∧ t.V = s.V

/-- The same registers and flags, but for PC and the budget. -/
def SameRegisters (s t : State) : Prop :=
  t.SP = s.SP ∧ t.A = s.A ∧ t.Z = s.Z ∧ t.N = s.N ∧ SameInert s t

/-- The stack cursor is at or above its reset value (R17: nothing lowers it). -/
def StackAboveBase (s : State) : Prop := Config.resetSP.toNat ≤ s.SP.toNat

/-- R85: Z and N are never both 1. -/
def FlagsDisjoint (s : State) : Prop := (s.Z && s.N) = false

/-- `JsrRun s [S₁, …, Sₙ] u`: from `s` the machine runs `n` JSR instructions, at the opcode addresses listed in order,
and reaches `u`. -/
inductive JsrRun : State → List Word → State → Prop where
  | nil (s : State) : JsrRun s [] s
  | cons (s t u : State) (opcodeAddresses : List Word) :
      memRead s s.PC = 0x20#8 → step s = .next t → JsrRun t opcodeAddresses u →
      JsrRun s (s.PC :: opcodeAddresses) u

end Sys2Proof.Safety
end

