-- ==== Sys2Proof/Certificates/Slice0/Obligations.lean ====
section
/-! DEFINITION. The statements for the provers. Each docstring names the rule of the spec it formalises; what rests on
the model's own choice names its log entry (`notes/assumptions/`). -/

open Sys2Proof Sys2Proof.Machine Sys2Proof.Safety

/-! ### Encoding -/

/-- R50 to R53: the decoder gives back every instruction from its encoding, with every operand value, whatever follows. -/
def Obligations.DecodeInvertsEncode : Prop :=
  ∀ (i : Instr) (rest : List Byte), decode (encode i ++ rest) = .ok (i, rest)

/-- R53, R54: the decoder reads nothing but encodings, so each byte sequence has one meaning. -/
def Obligations.DecodeAcceptsOnlyEncodings : Prop :=
  ∀ (bytes rest : List Byte) (i : Instr), decode bytes = .ok (i, rest) → bytes = encode i ++ rest

/-- R54: an opcode byte is refused by the decoder exactly when it is none of the four. -/
def Obligations.DecodeRefusesExactlyIllegalOpcodes : Prop :=
  ∀ (opcode : Byte) (operands : List Byte),
    decode (opcode :: operands) = .error (.illegalOpcode opcode) ↔
      opcode ≠ 0x20#8 ∧ opcode ≠ 0xA5#8 ∧ opcode ≠ 0xA9#8 ∧ opcode ≠ 0xB5#8

/-- Words written out from the binary column of R53 and the formats of R51. -/
def Obligations.SpecWordsDecode : Prop :=
  decode [0b10101001#8, 0b10000100#8] = .ok (.ldaImm 0x84, []) ∧
  decode [0b10100101#8, 0b00010000#8] = .ok (.ldaZp 0x10, []) ∧
  decode [0b10110101#8, 0b11110000#8] = .ok (.ldaZpX 0xF0, []) ∧
  decode [0b00100000#8, 0b00110100#8, 0b00010010#8] = .ok (.jsrAbs 0x1234, [])

/-! ### A step runs the decoded instruction -/

/-- R69, R55: when the bytes from PC decode to `i`, and it is not a JSR whose operand word would start at 0xFFFF, `step`
is `exec i` after PC has moved past the instruction's bytes and one cycle is charged for each of them. -/
def Obligations.StepRunsDecodedInstruction : Prop :=
  ∀ (s : State) (i : Instr) (rest : List Byte),
    decode [memRead s s.PC, memRead s (s.PC + 1#16), memRead s (s.PC + 2#16)] = .ok (i, rest) →
    (∀ target, i = .jsrAbs target → s.PC ≠ 0xFFFE#16) →
    step s = exec i { s with PC := s.PC + BitVec.ofNat 16 i.length, cyc := s.cyc - i.length }

/-! ### Results of exec: every instruction completes -/

/-- The effect of the three loads from the state in which the operand is consumed; they complete in every state. -/
def Obligations.LoadsComplete : Prop :=
  ∀ (operand : Byte) (s : State),
    exec (.ldaImm operand) s =
      .next { s with A := operand, Z := operand == 0#8, N := (operand &&& 0x80#8) != 0#8 } ∧
    (∀ v, memRead s (BitVec.ofNat 16 operand.toNat) = v →
      exec (.ldaZp operand) s =
        .next { s with A := v, Z := v == 0#8, N := (v &&& 0x80#8) != 0#8, cyc := s.cyc - 1 }) ∧
    (∀ v, memRead s (BitVec.ofNat 16 ((operand.toNat + s.X.toNat) % 256)) = v →
      exec (.ldaZpX operand) s =
        .next { s with A := v, Z := v == 0#8, N := (v &&& 0x80#8) != 0#8, cyc := s.cyc - 2 })

/-- The effect of JSR from the state in which the target is consumed (PC is the return address plus 1): it completes
whenever SP is not 0xFFFF, and stops in the AddressingFault when it is. -/
def Obligations.JsrCompletes : Prop :=
  ∀ (target : Word) (s : State),
    (s.SP ≠ 0xFFFF#16 →
      ∃ t, exec (.jsrAbs target) s = .next t ∧ t.PC = target ∧ t.SP = s.SP + 1#16 ∧ t.cyc = s.cyc - 3 ∧
        memRead t s.SP = BitVec.ofNat 8 (s.PC - 1#16).toNat ∧
        memRead t (s.SP + 1#16) = BitVec.ofNat 8 ((s.PC - 1#16).toNat / 256)) ∧
    (s.SP = 0xFFFF#16 → exec (.jsrAbs target) s = .fault (.addressingFault .writeWord 0xFFFF#16 s))

/-! ### Frames of exec -/

/-- The loads write A, Z, N and the budget; no load form stores. -/
def Obligations.LoadsFrame : Prop :=
  ∀ (i : Instr) (s t : State),
    (∀ target, i ≠ .jsrAbs target) → exec i s = .next t →
      t.PC = s.PC ∧ t.SP = s.SP ∧ SameInert s t ∧ ∀ a, memRead t a = memRead s a

/-- JSR writes PC, SP, the budget and the two bytes of the stack slot, whose address is taken before SP moves. -/
def Obligations.JsrFrame : Prop :=
  ∀ (target : Word) (s t : State),
    exec (.jsrAbs target) s = .next t →
      t.A = s.A ∧ t.Z = s.Z ∧ t.N = s.N ∧ SameInert s t ∧
      ∀ slot, stackSlot s = slot → ∀ a, a ≠ slot → a ≠ slot + 1#16 → memRead t a = memRead s a

/-! ### Whole instructions -/

/-- R86. -/
def Obligations.LdaImmInstruction : Prop :=
  ∀ (s : State) (v : Byte),
    memRead s s.PC = 0xA9#8 → memRead s (s.PC + 1#16) = v →
      step s = .next { s with
        A := v, Z := v == 0#8, N := (v &&& 0x80#8) != 0#8, PC := s.PC + 2#16, cyc := s.cyc - 2 }

/-- R87. -/
def Obligations.LdaZpInstruction : Prop :=
  ∀ (s : State) (p v : Byte),
    memRead s s.PC = 0xA5#8 → memRead s (s.PC + 1#16) = p → memRead s (BitVec.ofNat 16 p.toNat) = v →
      step s = .next { s with
        A := v, Z := v == 0#8, N := (v &&& 0x80#8) != 0#8, PC := s.PC + 2#16, cyc := s.cyc - 3 }

/-- R88, for every X, with its corner case X = 0: as LDA zp with one more cycle. -/
def Obligations.LdaZpXInstruction : Prop :=
  (∀ (s : State) (p v : Byte),
    memRead s s.PC = 0xB5#8 → memRead s (s.PC + 1#16) = p →
    memRead s (BitVec.ofNat 16 ((p.toNat + s.X.toNat) % 256)) = v →
      step s = .next { s with
        A := v, Z := v == 0#8, N := (v &&& 0x80#8) != 0#8, PC := s.PC + 2#16, cyc := s.cyc - 4 }) ∧
  (∀ (s : State) (p : Byte), s.X = 0#8 → exec (.ldaZpX p) s = exec (.ldaZp p) { s with cyc := s.cyc - 1 })

/-- The three cases of JSR from the opcode address `s.PC`, in the order in which they are tested (`42_jump_subroutine.md`
section 1). What a faulting word operation leaves is the spec's decisions D4 and D5 (log entry 4). -/
def Obligations.JsrInstruction : Prop :=
  ∀ s : State, memRead s s.PC = 0x20#8 →
    (s.PC = 0xFFFE#16 →
      step s = .fault (.addressingFault .fetchWord 0xFFFF#16 { s with PC := 0xFFFF#16, cyc := s.cyc - 1 })) ∧
    (s.PC ≠ 0xFFFE#16 → s.SP = 0xFFFF#16 →
      step s = .fault (.addressingFault .writeWord 0xFFFF#16 { s with PC := s.PC + 3#16, cyc := s.cyc - 3 })) ∧
    (s.PC ≠ 0xFFFE#16 → s.SP ≠ 0xFFFF#16 →
      ∃ t, step s = .next t ∧
        t.PC = BitVec.ofNat 16 ((memRead s (s.PC + 2#16)).toNat * 256 + (memRead s (s.PC + 1#16)).toNat) ∧
        t.SP = s.SP + 1#16 ∧ t.cyc = s.cyc - 6 ∧
        memRead t s.SP = BitVec.ofNat 8 (s.PC + 2#16).toNat ∧
        memRead t (s.SP + 1#16) = BitVec.ofNat 8 ((s.PC + 2#16).toNat / 256) ∧
        (∀ a, a ≠ s.SP → a ≠ s.SP + 1#16 → memRead t a = memRead s a) ∧
        t.A = s.A ∧ t.Z = s.Z ∧ t.N = s.N ∧ SameInert s t)

/-- An opcode outside the table faults after its fetch, recording itself and its own address; a DecodeFault has no other
cause; and the example of `60_exceptions.md` section 1. Halting, and the state left, are the spec's decisions D1 and D2
(log entry 4). -/
def Obligations.IllegalOpcodeFaults : Prop :=
  (∀ (s : State) (opcode : Byte), memRead s s.PC = opcode →
    opcode ≠ 0x20#8 → opcode ≠ 0xA5#8 → opcode ≠ 0xA9#8 → opcode ≠ 0xB5#8 →
      step s = .fault (.decodeFault opcode s.PC { s with PC := s.PC + 1#16, cyc := s.cyc - 1 })) ∧
  (∀ (s left : State) (opcode : Byte) (pc : Word), step s = .fault (.decodeFault opcode pc left) →
    opcode = memRead s s.PC ∧ pc = s.PC ∧
    opcode ≠ 0x20#8 ∧ opcode ≠ 0xA5#8 ∧ opcode ≠ 0xA9#8 ∧ opcode ≠ 0xB5#8) ∧
  (∀ s : State, execute 1 (resetCore s) =
    some ⟨.decodeFault 0x00#8 0xFFFC#16, 0, { State.reset with PC := 0xFFFD#16, cyc := 0 }⟩)

/-- The table of instruction bytes at the top of memory (`30_encoding.md` section 5), which rests on the spec's decisions
D3 and D4 (log entry 4): each opcode address with the operand address and the final PC it gives the loads; JSR at 0xFFFD
and 0xFFFF with the return address it stores; JSR at 0xFFFE. -/
def Obligations.InstructionsAtTopOfMemory : Prop :=
  (∀ (s : State) (operandAt endPC : Word),
    (s.PC = 0xFFFD#16 ∧ operandAt = 0xFFFE#16 ∧ endPC = 0xFFFF#16) ∨
    (s.PC = 0xFFFE#16 ∧ operandAt = 0xFFFF#16 ∧ endPC = 0x0000#16) ∨
    (s.PC = 0xFFFF#16 ∧ operandAt = 0x0000#16 ∧ endPC = 0x0001#16) →
      (memRead s s.PC = 0xA9#8 → ∃ t, step s = .next t ∧ t.PC = endPC ∧ t.A = memRead s operandAt) ∧
      (memRead s s.PC = 0xA5#8 → ∃ t, step s = .next t ∧ t.PC = endPC ∧
        t.A = memRead s (BitVec.ofNat 16 (memRead s operandAt).toNat)) ∧
      (memRead s s.PC = 0xB5#8 → ∃ t, step s = .next t ∧ t.PC = endPC ∧
        t.A = memRead s (BitVec.ofNat 16 (((memRead s operandAt).toNat + s.X.toNat) % 256)))) ∧
  (∀ (s : State) (lowAt highAt returnTo : Word), memRead s s.PC = 0x20#8 → s.SP ≠ 0xFFFF#16 →
    (s.PC = 0xFFFD#16 ∧ lowAt = 0xFFFE#16 ∧ highAt = 0xFFFF#16 ∧ returnTo = 0xFFFF#16) ∨
    (s.PC = 0xFFFF#16 ∧ lowAt = 0x0000#16 ∧ highAt = 0x0001#16 ∧ returnTo = 0x0001#16) →
      ∃ t, step s = .next t ∧ t.PC = joinBytes (memRead s highAt) (memRead s lowAt) ∧
        joinBytes (memRead t (s.SP + 1#16)) (memRead t s.SP) = returnTo) ∧
  (∀ s : State, memRead s s.PC = 0x20#8 → s.PC = 0xFFFE#16 →
    ∃ left, step s = .fault (.addressingFault .fetchWord 0xFFFF#16 left))

/-! ### Flags -/

/-- The flag computation with its outcome table, and where it is applied and where not (`41_load_accumulator.md`
section 1). That JSR keeps both flags is an inference the spec marks as its own: `10_state.md` section 5 derives it from
the Effect column of the dispatch table, and `91_not_in_source.md` N22 says that the source does not state it. -/
def Obligations.FlagComputation : Prop :=
  (∀ (v : Byte) (s : State), ∃ z n, setZN v s = { s with Z := z, N := n } ∧
    (v.toNat = 0 → z = true ∧ n = false) ∧
    (1 ≤ v.toNat → v.toNat ≤ 0x7F → z = false ∧ n = false) ∧
    (0x80 ≤ v.toNat → z = false ∧ n = true)) ∧
  (∀ (i : Instr) (s t : State), exec i s = .next t →
    (∀ target, i ≠ .jsrAbs target) →
      t.Z = (t.A == 0#8) ∧ t.N = ((t.A &&& 0x80#8) != 0#8) ∧ SameInert s t) ∧
  (∀ (target : Word) (s t : State), exec (.jsrAbs target) s = .next t → t.Z = s.Z ∧ t.N = s.N) ∧
  (∀ s : State, (resetCore s).Z = false ∧ (resetCore s).N = false)

/-! ### Primitives -/

/-- FetchByte (`40_fetch_execute.md` section 1); its wrap at 0xFFFF is the spec's decision D3 (log entry 4). -/
def Obligations.FetchByteReadsAtPC : Prop :=
  ∀ s : State,
    fetchByte s = (memRead s s.PC, { s with PC := s.PC + 1#16, cyc := s.cyc - 1 }) ∧
    (s.PC = 0xFFFF#16 → (fetchByte s).1 = memRead s 0xFFFF#16 ∧ (fetchByte s).2.PC = 0x0000#16)

/-- FetchWord and the word read inside it (`40_fetch_execute.md` section 1, `20_memory.md` section 2); the fault at 0xFFFF
and the wrap at 0xFFFE are the spec's decisions D4 and D3 (log entry 4). -/
def Obligations.FetchWordReadsAtPC : Prop :=
  (∀ (addr : Word) (s : State),
    memReadWord addr s =
      if addr = 0xFFFF#16 then .fault (.addressingFault .fetchWord 0xFFFF#16 s)
      else .next (BitVec.ofNat 16 ((memRead s (addr + 1#16)).toNat * 256 + (memRead s addr).toNat))) ∧
  (∀ s : State,
    fetchWord s =
      if s.PC = 0xFFFF#16 then .fault (.addressingFault .fetchWord 0xFFFF#16 s)
      else .next (BitVec.ofNat 16 ((memRead s (s.PC + 1#16)).toNat * 256 + (memRead s s.PC).toNat),
        { s with PC := s.PC + 2#16, cyc := s.cyc - 2 })) ∧
  (∀ (s t : State) (w : Word), s.PC = 0xFFFE#16 → fetchWord s = .next (w, t) → t.PC = 0x0000#16)

/-- R67. -/
def Obligations.ReadByteLeavesPC : Prop :=
  ∀ (addr : Word) (s : State), readByte addr s = (memRead s addr, { s with cyc := s.cyc - 1 })

/-- R32, R33: the byte operations of the MemoryBus. -/
def Obligations.WriteChangesOneCell : Prop :=
  ∀ (addr : Word) (v : Byte) (s : State),
    memRead (memWrite addr v s) addr = v ∧
    (∀ a, a ≠ addr → memRead (memWrite addr v s) a = memRead s a) ∧
    SameRegisters s (memWrite addr v s) ∧ (memWrite addr v s).PC = s.PC ∧ (memWrite addr v s).cyc = s.cyc

/-- WriteWord (`20_memory.md` section 2); that a faulting one charges nothing is the spec's decision D5 (log entry 4). -/
def Obligations.WriteWordStoresLittleEndian : Prop :=
  ∀ (addr w : Word) (s : State),
    (addr = 0xFFFF#16 → writeWord addr w s = .fault (.addressingFault .writeWord 0xFFFF#16 s)) ∧
    (addr ≠ 0xFFFF#16 →
      ∃ t, writeWord addr w s = .next t ∧
        memRead t addr = BitVec.ofNat 8 w.toNat ∧
        memRead t (addr + 1#16) = BitVec.ofNat 8 (w.toNat / 256) ∧
        (∀ a, a ≠ addr → a ≠ addr + 1#16 → memRead t a = memRead s a) ∧
        SameRegisters s t ∧ t.PC = s.PC ∧ t.cyc = s.cyc - 2)

/-- R37: what WriteWord stores, the byte reads see low byte first and FetchWord reads back as the same word. -/
def Obligations.WordWriteThenFetch : Prop :=
  ∀ (addr w : Word) (s t : State), writeWord addr w s = .next t →
    memRead t addr = w.extractLsb' 0 8 ∧ memRead t (addr + 1#16) = w.extractLsb' 8 8 ∧
    ∃ u, fetchWord { t with PC := addr } = .next (w, u)

/-! ### Faults -/

/-- The two causes of an AddressingFault, each with what it records, their order, and that the faulting word operation
leaves the state as it met it (`60_exceptions.md` section 1; the spec's decisions D4, D5 and D9, log entry 4). -/
def Obligations.AddressingFaultCauses : Prop :=
  (∀ (s : State) (addr : Word),
    (∃ left, step s = .fault (.addressingFault .fetchWord addr left)) ↔
      memRead s s.PC = 0x20#8 ∧ s.PC = 0xFFFE#16 ∧ addr = 0xFFFF#16) ∧
  (∀ (s : State) (addr : Word),
    (∃ left, step s = .fault (.addressingFault .writeWord addr left)) ↔
      memRead s s.PC = 0x20#8 ∧ s.PC ≠ 0xFFFE#16 ∧ s.SP = 0xFFFF#16 ∧ addr = 0xFFFF#16) ∧
  (∀ (s : State) (w : Word) (f : Fault),
    (fetchWord s = .fault f → f = .addressingFault .fetchWord 0xFFFF#16 s) ∧
    (∀ addr, writeWord addr w s = .fault f → f = .addressingFault .writeWord 0xFFFF#16 s))

/-- R103: fault delivery writes no register, flag or cell of its own; a fault leaves everything but PC and the budget as
the instruction met it. -/
def Obligations.FaultLeavesRegistersAndMemory : Prop :=
  ∀ (s : State) (f : Fault), step s = .fault f →
    SameRegisters s (faultLeft f) ∧ ∀ a, memRead (faultLeft f) a = memRead s a

/-- R53, R108: the four meanings are all there is to run; the model refuses no step. -/
def Obligations.StepNeverRefuses : Prop :=
  ∀ (s : State) (r : Refusal), step s ≠ .refused r

/-! ### What a step can change -/

/-- R13, R20: no instruction writes X, Y, C, I, D, B or V. -/
def Obligations.StepNeverWritesInertState : Prop :=
  ∀ s t : State, step s = .next t → SameInert s t

/-- R31, R90: a step that changes a byte of memory is a JSR, and the byte is one of the two of its stack slot. -/
def Obligations.OnlyJsrStores : Prop :=
  ∀ (s t : State) (a : Word), step s = .next t → memRead t a ≠ memRead s a →
    memRead s s.PC = 0x20#8 ∧ (a = s.SP ∨ a = s.SP + 1#16)

/-- R98, R17: every instruction but JSR falls through to its opcode address plus 2, and only JSR moves SP, by 1. -/
def Obligations.OnlyJsrTransfersControl : Prop :=
  ∀ s t : State, step s = .next t →
    (memRead s s.PC ≠ 0x20#8 → t.PC = s.PC + 2#16 ∧ t.SP = s.SP) ∧
    (memRead s s.PC = 0x20#8 → t.SP.toNat = s.SP.toNat + 1)

/-- R128: the total of each instruction and of each kind of fault. -/
def Obligations.StepChargesTableTotals : Prop :=
  (∀ s t : State, step s = .next t →
    (memRead s s.PC = 0xA9#8 ∧ t.cyc = s.cyc - 2) ∨ (memRead s s.PC = 0xA5#8 ∧ t.cyc = s.cyc - 3) ∨
    (memRead s s.PC = 0xB5#8 ∧ t.cyc = s.cyc - 4) ∨ (memRead s s.PC = 0x20#8 ∧ t.cyc = s.cyc - 6)) ∧
  (∀ (s left : State) (opcode : Byte) (pc : Word),
    step s = .fault (.decodeFault opcode pc left) → left.cyc = s.cyc - 1) ∧
  (∀ (s left : State) (addr : Word),
    step s = .fault (.addressingFault .fetchWord addr left) → left.cyc = s.cyc - 1) ∧
  (∀ (s left : State) (addr : Word),
    step s = .fault (.addressingFault .writeWord addr left) → left.cyc = s.cyc - 3)

/-- R24: the budget is invisible to an instruction: another budget gives the same step with the budget shifted. -/
def Obligations.BudgetIsInvisible : Prop :=
  ∀ (s : State) (c : Int),
    (∀ t, step s = .next t → step { s with cyc := c } = .next { t with cyc := c - (s.cyc - t.cyc) }) ∧
    (∀ op addr left, step s = .fault (.addressingFault op addr left) →
      step { s with cyc := c } =
        .fault (.addressingFault op addr { left with cyc := c - (s.cyc - left.cyc) })) ∧
    (∀ opcode pc left, step s = .fault (.decodeFault opcode pc left) →
      step { s with cyc := c } = .fault (.decodeFault opcode pc { left with cyc := c - (s.cyc - left.cyc) }))

/-- R31, R52: the data reads of LDA zp and LDA zp,X depend on no byte above 0x00FF. -/
def Obligations.LoadsReadOnlyZeroPage : Prop :=
  ∀ (s : State) (m : Memory),
    (∀ a : Word, a.toNat ≤ 0xFF → memRead { s with mem := m } a = memRead s a) →
    ∀ (i : Instr) (t : State), (∀ target, i ≠ .jsrAbs target) → exec i s = .next t →
      exec i { s with mem := m } = .next { t with mem := m }

/-- R97 items 4 and 5, R45: a JSR to its own stack slot takes the target it fetched, and the next opcode is the low byte
of the return address it has just stored. -/
def Obligations.JsrIntoItsStackSlot : Prop :=
  ∀ s t : State, memRead s s.PC = 0x20#8 →
    joinBytes (memRead s (s.PC + 2#16)) (memRead s (s.PC + 1#16)) = s.SP →
    step s = .next t → t.PC = s.SP ∧ memRead t t.PC = BitVec.ofNat 8 (s.PC + 2#16).toNat

/-- R127 item 1, R97 item 2: `n` JSRs in a row leave the low bytes of their return addresses in a row and the high byte
of the last one after them. -/
def Obligations.JsrRunStackLayout : Prop :=
  ∀ (s u : State) (first : Word) (others : List Word), JsrRun s (first :: others) u →
    u.SP.toNat = s.SP.toNat + others.length + 1 ∧
    (∀ (k : Nat) (h : k < (first :: others).length),
      memRead u (s.SP + BitVec.ofNat 16 k) = BitVec.ofNat 8 ((first :: others)[k] + 2#16).toNat) ∧
    memRead u u.SP =
      BitVec.ofNat 8 (((first :: others).getLast (List.cons_ne_nil _ _) + 2#16).toNat / 256)

/-! ### Invariants of every step -/

/-- The memory keeps its canonical form in the next state and in the state a fault leaves (the form is the model's,
log entry 6). -/
def Obligations.StepKeepsMemoryCanonical : Prop :=
  ∀ s : State, s.mem.wf →
    (∀ t, step s = .next t → t.mem.wf) ∧ (∀ f, step s = .fault f → (faultLeft f).mem.wf)

/-- Two memories in canonical form with the same bytes are the same data (the form is the model's, log entry 6). -/
def Obligations.CanonicalMemoryIsUnique : Prop :=
  ∀ s t : State, s.mem.wf → t.mem.wf → (∀ a, memRead s a = memRead t a) → s.mem = t.mem

/-- R17, R127 item 2: once SP is at or above its reset value it stays there, and nothing below it is ever stored to, so
that the whole zero page keeps its bytes. -/
def Obligations.StepKeepsStackAboveBase : Prop :=
  ∀ s t : State, StackAboveBase s → step s = .next t →
    StackAboveBase t ∧ ∀ a : Word, a.toNat < 0x0100 → memRead t a = memRead s a

/-- R85: Z and N are never both 1 after a step that started so. -/
def Obligations.StepKeepsFlagsDisjoint : Prop :=
  ∀ s t : State, FlagsDisjoint s → step s = .next t → FlagsDisjoint t

/-- The invariants hold at reset. -/
def Obligations.ResetMeetsInvariants : Prop :=
  State.reset.mem.wf ∧ StackAboveBase State.reset ∧ FlagsDisjoint State.reset ∧ InertClear State.reset

/-- R13, R17, R20, R85: in every state a session shows after its first Reset, with whatever programs and budgets, X and Y
are 0 and C, I, D, B and V are 0, SP is at or above 0x0100, Z and N are not both 1, and memory is in canonical form. What
the host may do between calls is the spec's decision D12 (log entry 4), and the canonical form is the model's own (log
entry 6). -/
def Obligations.ReachableStatesMeetInvariants : Prop :=
  ∀ s : State, Reachable s → InertClear s ∧ StackAboveBase s ∧ FlagsDisjoint s ∧ s.mem.wf

/-! ### Reset -/

/-- R26, R120, R121: the values after Reset, whatever the state before it; idempotence; the budget untouched. -/
def Obligations.ResetValues : Prop :=
  ∀ s : State,
    (resetCore s).PC = 0xFFFC#16 ∧ (resetCore s).SP = 0x0100#16 ∧
    (resetCore s).A = 0#8 ∧ (resetCore s).X = 0#8 ∧ (resetCore s).Y = 0#8 ∧
    (resetCore s).C = false ∧ (resetCore s).Z = false ∧ (resetCore s).I = false ∧ (resetCore s).D = false ∧
    (resetCore s).B = false ∧ (resetCore s).V = false ∧ (resetCore s).N = false ∧
    (∀ a, memRead (resetCore s) a = 0#8) ∧ (resetCore s).cyc = s.cyc ∧
    resetCore (resetCore s) = resetCore s ∧
    (∀ s', s'.cyc = s.cyc → resetCore s' = resetCore s)

/-! ### Execute -/

/-- R70: `execute` is the budget loop: it returns BudgetExhausted exactly when the budget is not above zero, and otherwise
runs one step and goes on from there with what is left, or returns the step's fault. -/
def Obligations.ExecuteIsBudgetLoop : Prop :=
  ∀ (b : Int) (s : State),
    (¬ 0 < b → execute b s = some ⟨.budgetExhausted, b, { s with cyc := b }⟩) ∧
    (0 < b → ∀ t, step { s with cyc := b } = .next t → execute b s = execute t.cyc t) ∧
    (0 < b → ∀ op addr left, step { s with cyc := b } = .fault (.addressingFault op addr left) →
      execute b s = some ⟨.addressingFault op addr, left.cyc, left⟩) ∧
    (0 < b → ∀ opcode pc left, step { s with cyc := b } = .fault (.decodeFault opcode pc left) →
      execute b s = some ⟨.decodeFault opcode pc, left.cyc, left⟩)

/-- Execute always returns, and half the budget, rounded up, is enough instructions for that (`40_fetch_execute.md`
section 2, the derived consequence in R74; `none` is the model's own, log entry 8). -/
def Obligations.ExecuteAlwaysReturns : Prop :=
  ∀ (b : Int) (s : State), ∃ r,
    execute b s = some r ∧ executeWithin ((b.toNat + 1) / 2) { s with cyc := b } = some r

/-- A budget of zero or less runs nothing (`40_fetch_execute.md` section 2; the spec's decision D15). -/
def Obligations.ExecuteWithoutBudget : Prop :=
  ∀ (b : Int) (s : State), b ≤ 0 → ∃ r, execute b s = some r ∧ r.outcome = .budgetExhausted ∧ r.cyc = b ∧
    r.state.PC = s.PC ∧ SameRegisters s r.state ∧ ∀ a, memRead r.state a = memRead s a

/-- The overrun is at most 5 cycles, and the JSR of the spec's example reaches it (`40_fetch_execute.md` section 2, the
derived consequences in R71; decision D16). -/
def Obligations.BudgetOverrunBound : Prop :=
  (∀ (b : Int) (s : State) (r : ExecuteResult), 1 ≤ b → execute b s = some r → r.outcome = .budgetExhausted →
    -5 ≤ r.cyc ∧ r.cyc ≤ 0) ∧
  (∀ s : State, memRead s s.PC = 0x20#8 → s.PC ≠ 0xFFFE#16 → s.SP ≠ 0xFFFF#16 →
    ∃ r, execute 1 s = some r ∧ r.outcome = .budgetExhausted ∧ r.cyc = -5)

/-- A larger budget runs on from where the smaller one stopped, so two calls in a row are one call (`40_fetch_execute.md`
sections 2 and 3; that `Execute` may be called again is the spec's decision D10, log entry 4). -/
def Obligations.BudgetSplits : Prop :=
  ∀ (b k cyc : Int) (s t : State), 0 ≤ k → execute b s = some ⟨.budgetExhausted, cyc, t⟩ →
    execute (b + k) s = execute (cyc + k) t

/-- The leftover budget is not carried into the next call, and the core latches no fault: what a call does depends on the
registers, flags and memory it finds (`40_fetch_execute.md` section 3; decision D10, log entry 4). -/
def Obligations.LeftoverBudgetIsDropped : Prop :=
  ∀ (b c : Int) (s : State), execute b { s with cyc := c } = execute b s

/-! ### The host -/

/-- R6, R104: every move of the host is possible in every state; the first fault of a session, once recorded, stays; an
Execute that returns a fault in a session without one records it (the record is the model's, log entry 10). -/
def Obligations.SessionRecordsFirstFault : Prop :=
  ∀ (action : HostAction) (h : Session), ∃ h', hostAct action h = some h' ∧
    (∀ f, h.firstFault = some f → h'.firstFault = some f) ∧
    (h.firstFault = none → ∀ b r, action = .execute b → execute b h.core = some r →
      h'.core = r.state ∧ h'.firstFault = if r.outcome = .budgetExhausted then none else some r.outcome)
end

