-- ==== Sys2Proof/Laws/Execute.lean ====
section
/-! SUPPORT. The equations of the budget loop. -/

namespace Sys2Proof.Machine

theorem executeWithin_exhausted {s : State} (h : ¬ 0 < s.cyc) (limit : Nat) :
    executeWithin limit s = some (returnExhausted s) := by
  unfold executeWithin
  simp only [h, if_false]

theorem executeWithin_zero {s : State} (h : 0 < s.cyc) : executeWithin 0 s = none := by
  unfold executeWithin
  simp only [h, if_true]

theorem executeWithin_next {s t : State} (h : 0 < s.cyc) (hs : step s = .next t) (limit : Nat) :
    executeWithin (limit + 1) s = executeWithin limit t := by
  rw [executeWithin.eq_def]
  simp only [h, if_true, hs]

theorem executeWithin_fault {s : State} {f : Fault} (h : 0 < s.cyc) (hs : step s = .fault f) (limit : Nat) :
    executeWithin (limit + 1) s = some (returnFault f) := by
  rw [executeWithin.eq_def]
  simp only [h, if_true, hs]

end Sys2Proof.Machine
end

