-- ==== Sys2Proof/Laws/Memory.lean ====
section
/-! SUPPORT. The laws of the store: what a read returns after each operation, and that every operation keeps the
canonical form. -/

namespace Sys2Proof.Machine

theorem Memory.read_erase (m : Memory) (a b : Nat) :
    (m.erase a).read b = if b = a then Memory.unlisted else m.read b := by
  induction m with
  | nil => simp [Memory.erase, Memory.read]
  | cons c rest ih =>
    simp only [Memory.erase] at ih ⊢
    by_cases hca : c.1 = a
    · rw [List.filter_cons_of_neg (by simp [hca]), ih]
      by_cases hba : b = a
      · simp [hba]
      · simp [Memory.read, hca, hba, Ne.symm hba]
    · rw [List.filter_cons_of_pos (by simp [hca])]
      simp only [Memory.read, ih]
      by_cases hcb : c.1 = b
      · simp [hcb, show ¬ b = a from fun h => hca (hcb.trans h)]
      · simp [hcb]

theorem Memory.read_insert_same {m : Memory} {a : Nat} (v : Byte) (absent : ∀ c ∈ m, c.1 ≠ a) :
    (Memory.insert m a v).read a = v := by
  induction m with
  | nil => simp [Memory.insert, Memory.read]
  | cons c rest ih =>
    have hc : c.1 ≠ a := absent c (by simp)
    have hrest : ∀ d ∈ rest, d.1 ≠ a := fun d hd => absent d (by simp [hd])
    by_cases h : a < c.1 <;> simp [Memory.insert, Memory.read, h, hc, ih hrest]

theorem Memory.read_insert_other (m : Memory) {a b : Nat} (v : Byte) (h : b ≠ a) :
    (Memory.insert m a v).read b = m.read b := by
  induction m with
  | nil => simp [Memory.insert, Memory.read, h.symm]
  | cons c rest ih => by_cases hlt : a < c.1 <;> simp [Memory.insert, Memory.read, hlt, h.symm, ih]

theorem Memory.erase_absent (m : Memory) (a : Nat) : ∀ c ∈ m.erase a, c.1 ≠ a := by
  intro c hc
  simpa using (List.mem_filter.mp hc).2

/-- A read after a write: the byte written at that address, and what was there before at every other (R32, R33). -/
theorem Memory.read_write (m : Memory) (a b : Nat) (v : Byte) :
    (m.write a v).read b = if b = a then v else m.read b := by
  unfold Memory.write
  split
  · rename_i h
    rw [Memory.read_erase, h]
  · by_cases h : b = a
    · subst h
      simp [Memory.read_insert_same v (Memory.erase_absent m b)]
    · simp [Memory.read_insert_other _ v h, Memory.read_erase, h]

theorem Memory.wf_nil : Memory.wf [] := by simp [Memory.wf]

theorem Memory.wf_erase {m : Memory} (h : m.wf) (a : Nat) : Memory.wf (m.erase a) :=
  ⟨h.1.filter _, fun c hc => h.2 c (List.mem_of_mem_filter hc)⟩

theorem Memory.mem_insert {m : Memory} {a : Nat} {v : Byte} {c : Host.Cell} :
    c ∈ Memory.insert m a v ↔ c = (a, v) ∨ c ∈ m := by
  induction m with
  | nil => simp [Memory.insert]
  | cons d rest ih =>
    by_cases h : a < d.1 <;> simp only [Memory.insert, h, if_true, if_false, List.mem_cons, ih]
    tauto

theorem Memory.wf_insert {m : Memory} (h : m.wf) {a : Nat} {v : Byte} (absent : ∀ c ∈ m, c.1 ≠ a)
    (inRange : a < Config.memCells) (nonzero : v ≠ Memory.unlisted) : Memory.wf (Memory.insert m a v) := by
  refine ⟨?_, fun c hc => ?_⟩
  · have rising := h.1
    clear h
    induction m with
    | nil => simp [Memory.insert]
    | cons d rest ih =>
      obtain ⟨hd, hrest⟩ := List.pairwise_cons.mp rising
      have hne : d.1 ≠ a := absent d (by simp)
      by_cases hlt : a < d.1
      · simp only [Memory.insert, hlt, if_true]
        refine List.pairwise_cons.mpr ⟨fun c hc => ?_, rising⟩
        rcases List.mem_cons.mp hc with rfl | hc
        · exact hlt
        · exact hlt.trans (hd c hc)
      · simp only [Memory.insert, hlt, if_false]
        refine List.pairwise_cons.mpr ⟨fun c hc => ?_, ih (fun c hc => absent c (by simp [hc])) hrest⟩
        rcases Memory.mem_insert.mp hc with rfl | hc
        · exact lt_of_le_of_ne (not_lt.mp hlt) hne
        · exact hd c hc
  · rcases Memory.mem_insert.mp hc with rfl | hc
    · exact ⟨inRange, nonzero⟩
    · exact h.2 c hc

/-- Writing a cell of the address space keeps the canonical form. -/
theorem Memory.wf_write {m : Memory} (h : m.wf) {a : Nat} (v : Byte) (inRange : a < Config.memCells) :
    Memory.wf (m.write a v) := by
  unfold Memory.write
  split
  · exact Memory.wf_erase h a
  · exact Memory.wf_insert (Memory.wf_erase h a) (Memory.erase_absent m a) inRange ‹_›

theorem Memory.wf_reset : Memory.wf State.reset.mem := Memory.wf_nil

/-! The same laws for the bytes of a state. -/

/-- R33: a write changes one cell. -/
@[simp] theorem memRead_memWrite (s : State) (a b : Word) (v : Byte) :
    memRead (memWrite a v s) b = if b = a then v else memRead s b := by
  simp [memRead, memWrite, Memory.read_write, BitVec.toNat_inj]

theorem memWrite_wf {s : State} (h : s.mem.wf) (a : Word) (v : Byte) : Memory.wf (memWrite a v s).mem :=
  Memory.wf_write h v a.isLt

theorem memInit_wf (s : State) : Memory.wf (memInit s).mem := Memory.wf_nil

end Sys2Proof.Machine
end

