-- ==== Sys2Proof/Laws/State.lean ====
section
/-! SUPPORT. What each update of the state leaves in each field, so that no proof unfolds an update. -/

namespace Sys2Proof.Machine

@[simp] theorem charge_PC (k : Int) (s : State) : (charge k s).PC = s.PC := rfl
@[simp] theorem charge_SP (k : Int) (s : State) : (charge k s).SP = s.SP := rfl
@[simp] theorem charge_A (k : Int) (s : State) : (charge k s).A = s.A := rfl
@[simp] theorem charge_X (k : Int) (s : State) : (charge k s).X = s.X := rfl
@[simp] theorem charge_Y (k : Int) (s : State) : (charge k s).Y = s.Y := rfl
@[simp] theorem charge_C (k : Int) (s : State) : (charge k s).C = s.C := rfl
@[simp] theorem charge_Z (k : Int) (s : State) : (charge k s).Z = s.Z := rfl
@[simp] theorem charge_I (k : Int) (s : State) : (charge k s).I = s.I := rfl
@[simp] theorem charge_D (k : Int) (s : State) : (charge k s).D = s.D := rfl
@[simp] theorem charge_B (k : Int) (s : State) : (charge k s).B = s.B := rfl
@[simp] theorem charge_V (k : Int) (s : State) : (charge k s).V = s.V := rfl
@[simp] theorem charge_N (k : Int) (s : State) : (charge k s).N = s.N := rfl
@[simp] theorem charge_mem (k : Int) (s : State) : (charge k s).mem = s.mem := rfl
@[simp] theorem charge_cyc (k : Int) (s : State) : (charge k s).cyc = s.cyc - k := rfl

@[simp] theorem advancePC_PC (n : Word) (s : State) : (advancePC n s).PC = s.PC + n := rfl
@[simp] theorem advancePC_SP (n : Word) (s : State) : (advancePC n s).SP = s.SP := rfl
@[simp] theorem advancePC_A (n : Word) (s : State) : (advancePC n s).A = s.A := rfl
@[simp] theorem advancePC_X (n : Word) (s : State) : (advancePC n s).X = s.X := rfl
@[simp] theorem advancePC_Y (n : Word) (s : State) : (advancePC n s).Y = s.Y := rfl
@[simp] theorem advancePC_C (n : Word) (s : State) : (advancePC n s).C = s.C := rfl
@[simp] theorem advancePC_Z (n : Word) (s : State) : (advancePC n s).Z = s.Z := rfl
@[simp] theorem advancePC_I (n : Word) (s : State) : (advancePC n s).I = s.I := rfl
@[simp] theorem advancePC_D (n : Word) (s : State) : (advancePC n s).D = s.D := rfl
@[simp] theorem advancePC_B (n : Word) (s : State) : (advancePC n s).B = s.B := rfl
@[simp] theorem advancePC_V (n : Word) (s : State) : (advancePC n s).V = s.V := rfl
@[simp] theorem advancePC_N (n : Word) (s : State) : (advancePC n s).N = s.N := rfl
@[simp] theorem advancePC_mem (n : Word) (s : State) : (advancePC n s).mem = s.mem := rfl
@[simp] theorem advancePC_cyc (n : Word) (s : State) : (advancePC n s).cyc = s.cyc := rfl

@[simp] theorem setZN_PC (v : Byte) (s : State) : (setZN v s).PC = s.PC := rfl
@[simp] theorem setZN_SP (v : Byte) (s : State) : (setZN v s).SP = s.SP := rfl
@[simp] theorem setZN_A (v : Byte) (s : State) : (setZN v s).A = s.A := rfl
@[simp] theorem setZN_X (v : Byte) (s : State) : (setZN v s).X = s.X := rfl
@[simp] theorem setZN_Y (v : Byte) (s : State) : (setZN v s).Y = s.Y := rfl
@[simp] theorem setZN_C (v : Byte) (s : State) : (setZN v s).C = s.C := rfl
@[simp] theorem setZN_Z (v : Byte) (s : State) : (setZN v s).Z = zeroFlag v := rfl
@[simp] theorem setZN_I (v : Byte) (s : State) : (setZN v s).I = s.I := rfl
@[simp] theorem setZN_D (v : Byte) (s : State) : (setZN v s).D = s.D := rfl
@[simp] theorem setZN_B (v : Byte) (s : State) : (setZN v s).B = s.B := rfl
@[simp] theorem setZN_V (v : Byte) (s : State) : (setZN v s).V = s.V := rfl
@[simp] theorem setZN_N (v : Byte) (s : State) : (setZN v s).N = negativeFlag v := rfl
@[simp] theorem setZN_mem (v : Byte) (s : State) : (setZN v s).mem = s.mem := rfl
@[simp] theorem setZN_cyc (v : Byte) (s : State) : (setZN v s).cyc = s.cyc := rfl

@[simp] theorem loadA_PC (v : Byte) (s : State) : (loadA v s).PC = s.PC := rfl
@[simp] theorem loadA_SP (v : Byte) (s : State) : (loadA v s).SP = s.SP := rfl
@[simp] theorem loadA_A (v : Byte) (s : State) : (loadA v s).A = v := rfl
@[simp] theorem loadA_X (v : Byte) (s : State) : (loadA v s).X = s.X := rfl
@[simp] theorem loadA_Y (v : Byte) (s : State) : (loadA v s).Y = s.Y := rfl
@[simp] theorem loadA_C (v : Byte) (s : State) : (loadA v s).C = s.C := rfl
@[simp] theorem loadA_Z (v : Byte) (s : State) : (loadA v s).Z = zeroFlag v := rfl
@[simp] theorem loadA_I (v : Byte) (s : State) : (loadA v s).I = s.I := rfl
@[simp] theorem loadA_D (v : Byte) (s : State) : (loadA v s).D = s.D := rfl
@[simp] theorem loadA_B (v : Byte) (s : State) : (loadA v s).B = s.B := rfl
@[simp] theorem loadA_V (v : Byte) (s : State) : (loadA v s).V = s.V := rfl
@[simp] theorem loadA_N (v : Byte) (s : State) : (loadA v s).N = negativeFlag v := rfl
@[simp] theorem loadA_mem (v : Byte) (s : State) : (loadA v s).mem = s.mem := rfl
@[simp] theorem loadA_cyc (v : Byte) (s : State) : (loadA v s).cyc = s.cyc := rfl

@[simp] theorem memWrite_PC (addr : Word) (v : Byte) (s : State) : (memWrite addr v s).PC = s.PC := rfl
@[simp] theorem memWrite_SP (addr : Word) (v : Byte) (s : State) : (memWrite addr v s).SP = s.SP := rfl
@[simp] theorem memWrite_A (addr : Word) (v : Byte) (s : State) : (memWrite addr v s).A = s.A := rfl
@[simp] theorem memWrite_X (addr : Word) (v : Byte) (s : State) : (memWrite addr v s).X = s.X := rfl
@[simp] theorem memWrite_Y (addr : Word) (v : Byte) (s : State) : (memWrite addr v s).Y = s.Y := rfl
@[simp] theorem memWrite_C (addr : Word) (v : Byte) (s : State) : (memWrite addr v s).C = s.C := rfl
@[simp] theorem memWrite_Z (addr : Word) (v : Byte) (s : State) : (memWrite addr v s).Z = s.Z := rfl
@[simp] theorem memWrite_I (addr : Word) (v : Byte) (s : State) : (memWrite addr v s).I = s.I := rfl
@[simp] theorem memWrite_D (addr : Word) (v : Byte) (s : State) : (memWrite addr v s).D = s.D := rfl
@[simp] theorem memWrite_B (addr : Word) (v : Byte) (s : State) : (memWrite addr v s).B = s.B := rfl
@[simp] theorem memWrite_V (addr : Word) (v : Byte) (s : State) : (memWrite addr v s).V = s.V := rfl
@[simp] theorem memWrite_N (addr : Word) (v : Byte) (s : State) : (memWrite addr v s).N = s.N := rfl
@[simp] theorem memWrite_mem (addr : Word) (v : Byte) (s : State) : (memWrite addr v s).mem = s.mem.write addr.toNat v := rfl
@[simp] theorem memWrite_cyc (addr : Word) (v : Byte) (s : State) : (memWrite addr v s).cyc = s.cyc := rfl

@[simp] theorem memInit_PC (s : State) : (memInit s).PC = s.PC := rfl
@[simp] theorem memInit_SP (s : State) : (memInit s).SP = s.SP := rfl
@[simp] theorem memInit_A (s : State) : (memInit s).A = s.A := rfl
@[simp] theorem memInit_X (s : State) : (memInit s).X = s.X := rfl
@[simp] theorem memInit_Y (s : State) : (memInit s).Y = s.Y := rfl
@[simp] theorem memInit_C (s : State) : (memInit s).C = s.C := rfl
@[simp] theorem memInit_Z (s : State) : (memInit s).Z = s.Z := rfl
@[simp] theorem memInit_I (s : State) : (memInit s).I = s.I := rfl
@[simp] theorem memInit_D (s : State) : (memInit s).D = s.D := rfl
@[simp] theorem memInit_B (s : State) : (memInit s).B = s.B := rfl
@[simp] theorem memInit_V (s : State) : (memInit s).V = s.V := rfl
@[simp] theorem memInit_N (s : State) : (memInit s).N = s.N := rfl
@[simp] theorem memInit_mem (s : State) : (memInit s).mem = [] := rfl
@[simp] theorem memInit_cyc (s : State) : (memInit s).cyc = s.cyc := rfl

@[simp] theorem resetCore_PC (s : State) : (resetCore s).PC = Config.resetPC := rfl
@[simp] theorem resetCore_SP (s : State) : (resetCore s).SP = Config.resetSP := rfl
@[simp] theorem resetCore_A (s : State) : (resetCore s).A = 0x00#8 := rfl
@[simp] theorem resetCore_X (s : State) : (resetCore s).X = 0x00#8 := rfl
@[simp] theorem resetCore_Y (s : State) : (resetCore s).Y = 0x00#8 := rfl
@[simp] theorem resetCore_C (s : State) : (resetCore s).C = false := rfl
@[simp] theorem resetCore_Z (s : State) : (resetCore s).Z = false := rfl
@[simp] theorem resetCore_I (s : State) : (resetCore s).I = false := rfl
@[simp] theorem resetCore_D (s : State) : (resetCore s).D = false := rfl
@[simp] theorem resetCore_B (s : State) : (resetCore s).B = false := rfl
@[simp] theorem resetCore_V (s : State) : (resetCore s).V = false := rfl
@[simp] theorem resetCore_N (s : State) : (resetCore s).N = false := rfl
@[simp] theorem resetCore_mem (s : State) : (resetCore s).mem = [] := rfl
@[simp] theorem resetCore_cyc (s : State) : (resetCore s).cyc = s.cyc := rfl

/-! Reading one byte after an update that does not touch memory. -/

@[simp] theorem memRead_charge (k : Int) (s : State) (a : Word) : memRead (charge k s) a = memRead s a := rfl
@[simp] theorem memRead_advancePC (n : Word) (s : State) (a : Word) : memRead (advancePC n s) a = memRead s a := rfl
@[simp] theorem memRead_setZN (v : Byte) (s : State) (a : Word) : memRead (setZN v s) a = memRead s a := rfl
@[simp] theorem memRead_loadA (v : Byte) (s : State) (a : Word) : memRead (loadA v s) a = memRead s a := rfl
@[simp] theorem memRead_memInit (s : State) (a : Word) : memRead (memInit s) a = 0x00#8 := rfl

/-! Updates of one field compose. -/

theorem charge_charge (j k : Int) (s : State) : charge j (charge k s) = charge (k + j) s := by
  simp [charge, Int.sub_sub]

theorem advancePC_advancePC (m n : Word) (s : State) : advancePC m (advancePC n s) = advancePC (n + m) s := by
  simp [advancePC, BitVec.add_assoc]

theorem advancePC_charge (n : Word) (k : Int) (s : State) :
    advancePC n (charge k s) = charge k (advancePC n s) := rfl

/-- `Reset` forgets everything but the budget, which it leaves alone (R120, R122). -/
theorem resetCore_eq (s : State) : resetCore s = { State.reset with cyc := s.cyc } := rfl

end Sys2Proof.Machine
end

