-- ==== Sys2Proof/Laws/Ops.lean ====
section
/-! SUPPORT. One law per shared operation: everything it can do. -/

namespace Sys2Proof.Machine

/-! ### Sequencing -/

section
variable {α β : Type} (a : α) (k : α → Host.Outcome β Fault Refusal)

@[simp] theorem andThen_next : andThen (.next a) k = k a := rfl
@[simp] theorem andThen_fault (f : Fault) : andThen (.fault f) k = .fault f := rfl
@[simp] theorem andThen_refused (f : Refusal) : andThen (.refused f) k = .refused f := rfl
end

theorem andThen_eq_next {α β : Type} {r : Host.Outcome α Fault Refusal} {k : α → Host.Outcome β Fault Refusal} {b : β} :
    andThen r k = .next b ↔ ∃ a, r = .next a ∧ k a = .next b := by
  cases r <;> simp

theorem andThen_eq_fault {α β : Type} {r : Host.Outcome α Fault Refusal} {k : α → Host.Outcome β Fault Refusal} {f : Fault} :
    andThen r k = .fault f ↔ r = .fault f ∨ ∃ a, r = .next a ∧ k a = .fault f := by
  cases r <;> simp

theorem andThen_eq_refused {α β : Type} {r : Host.Outcome α Fault Refusal} {k : α → Host.Outcome β Fault Refusal}
    {f : Refusal} :
    andThen r k = .refused f ↔ r = .refused f ∨ ∃ a, r = .next a ∧ k a = .refused f := by
  cases r <;> simp

/-! ### Word accesses -/

theorem writeWord_inRange {addr : Word} (h : addr ≠ 0xFFFF#16) (w : Word) (s : State) :
    writeWord addr w s = .next (charge 2 (memWrite (addr + 1#16) (highByte w) (memWrite addr (lowByte w) s))) := by
  simp [writeWord, Config.lastAddress, h]

theorem writeWord_top (w : Word) (s : State) :
    writeWord 0xFFFF#16 w s = .fault (.addressingFault .writeWord 0xFFFF#16 s) := rfl

theorem fetchWord_inRange {s : State} (h : s.PC ≠ 0xFFFF#16) :
    fetchWord s =
      .next (joinBytes (memRead s (s.PC + 1#16)) (memRead s s.PC), charge 2 (advancePC 2#16 s)) := by
  simp [fetchWord, memReadWord, Config.lastAddress, h]

theorem fetchWord_top {s : State} (h : s.PC = 0xFFFF#16) :
    fetchWord s = .fault (.addressingFault .fetchWord 0xFFFF#16 s) := by
  simp [fetchWord, memReadWord, Config.lastAddress, h, raise]

/-! ### Dispatch -/

/-- The dispatch table has four rows and nothing else (R53, R54). -/
theorem dispatch_cases (opcode : Byte) :
    (opcode = 0xA9#8 ∧ dispatch opcode = some (.fetchesByte .ldaImm)) ∨
    (opcode = 0xA5#8 ∧ dispatch opcode = some (.fetchesByte .ldaZp)) ∨
    (opcode = 0xB5#8 ∧ dispatch opcode = some (.fetchesByte .ldaZpX)) ∨
    (opcode = 0x20#8 ∧ dispatch opcode = some (.fetchesWord .jsrAbs)) ∨
    ((opcode ≠ 0xA9#8 ∧ opcode ≠ 0xA5#8 ∧ opcode ≠ 0xB5#8 ∧ opcode ≠ 0x20#8) ∧ dispatch opcode = none) := by
  by_cases h₁ : opcode = 0xA9#8
  · exact .inl ⟨h₁, by subst h₁; rfl⟩
  by_cases h₂ : opcode = 0xA5#8
  · exact .inr (.inl ⟨h₂, by subst h₂; rfl⟩)
  by_cases h₃ : opcode = 0xB5#8
  · exact .inr (.inr (.inl ⟨h₃, by subst h₃; rfl⟩))
  by_cases h₄ : opcode = 0x20#8
  · exact .inr (.inr (.inr (.inl ⟨h₄, by subst h₄; rfl⟩)))
  exact .inr (.inr (.inr (.inr ⟨⟨h₁, h₂, h₃, h₄⟩, by
    simp [dispatch, dispatchTable, Ne.symm h₁, Ne.symm h₂, Ne.symm h₃, Ne.symm h₄]⟩)))

@[simp] theorem dispatch_ldaImm : dispatch 0xA9#8 = some (.fetchesByte .ldaImm) := rfl
@[simp] theorem dispatch_ldaZp : dispatch 0xA5#8 = some (.fetchesByte .ldaZp) := rfl
@[simp] theorem dispatch_ldaZpX : dispatch 0xB5#8 = some (.fetchesByte .ldaZpX) := rfl
@[simp] theorem dispatch_jsrAbs : dispatch 0x20#8 = some (.fetchesWord .jsrAbs) := rfl

/-! ### Fetching an instruction -/

theorem fetchInstr_illegal {s : State} (h : dispatch (memRead s s.PC) = none) :
    fetchInstr s = .fault (.decodeFault (memRead s s.PC) s.PC (charge 1 (advancePC 1#16 s))) := by
  simp [fetchInstr, fetchByte, h, raise]

theorem fetchInstr_byte {s : State} {instr : Byte → Instr}
    (h : dispatch (memRead s s.PC) = some (.fetchesByte instr)) :
    fetchInstr s = .next (instr (memRead s (s.PC + 1#16)), charge 2 (advancePC 2#16 s)) := by
  simp [fetchInstr, fetchByte, h, advancePC_charge, charge_charge, advancePC_advancePC]

theorem fetchInstr_word {s : State} {instr : Word → Instr}
    (h : dispatch (memRead s s.PC) = some (.fetchesWord instr)) (hpc : s.PC ≠ 0xFFFE#16) :
    fetchInstr s =
      .next (instr (joinBytes (memRead s (s.PC + 2#16)) (memRead s (s.PC + 1#16))), charge 3 (advancePC 3#16 s)) := by
  have hne : (charge 1 (advancePC 1#16 s)).PC ≠ 0xFFFF#16 := fun (e : s.PC + 1#16 = 0xFFFF#16) => hpc (by bv_omega)
  simp [fetchInstr, fetchByte, h, fetchWord_inRange hne, advancePC_charge,
    charge_charge, advancePC_advancePC, BitVec.add_assoc]

theorem fetchInstr_word_top {s : State} {instr : Word → Instr}
    (h : dispatch (memRead s s.PC) = some (.fetchesWord instr)) (hpc : s.PC = 0xFFFE#16) :
    fetchInstr s = .fault (.addressingFault .fetchWord 0xFFFF#16 (charge 1 (advancePC 1#16 s))) := by
  have he : (charge 1 (advancePC 1#16 s)).PC = 0xFFFF#16 := by simp [hpc]
  simp [fetchInstr, fetchByte, h, fetchWord_top he]

/-! ### The meanings -/

theorem execLdaImm_eq (imm8 : Byte) (s : State) : execLdaImm imm8 s = .next (loadA imm8 s) := rfl

theorem execLdaZp_eq (zp8 : Byte) (s : State) :
    execLdaZp zp8 s = .next (loadA (memRead s (zeroPage zp8)) (charge 1 s)) := rfl

theorem execLdaZpX_eq (zp8 : Byte) (s : State) :
    execLdaZpX zp8 s = .next (loadA (memRead s (zeroPageX zp8 s)) (charge 2 s)) := by
  simp [execLdaZpX, readByte, charge_charge]

theorem execJsrAbs_inRange {s : State} (h : s.SP ≠ 0xFFFF#16) (target : Word) :
    execJsrAbs target s =
      .next (charge 1
        { charge 2 (memWrite (s.SP + 1#16) (highByte (s.PC - 1#16)) (memWrite s.SP (lowByte (s.PC - 1#16)) s)) with
          SP := s.SP + 1#16, PC := target }) := by
  simp [execJsrAbs, stackSlot, returnAddress, writeWord_inRange h]

theorem execJsrAbs_top {s : State} (h : s.SP = 0xFFFF#16) (target : Word) :
    execJsrAbs target s = .fault (.addressingFault .writeWord 0xFFFF#16 s) := by
  simp [execJsrAbs, stackSlot, h, writeWord_top]

end Sys2Proof.Machine
end

