-- ==== Sys2Proof/Laws/PerInstr.lean ====
section
/-! SUPPORT. Facts about every instruction as syntax, one lemma per constructor. -/

namespace Sys2Proof.Laws.EncodedLength

/-- R50, R53: the encoding of an instruction has the instruction's length, and its first byte is in the dispatch table. -/
def Statement (i : Instr) : Prop :=
  (encode i).length = i.length ∧ ((encode i).head?.bind dispatch).isSome = true

theorem ldaImm (imm8 : Byte) : Statement (.ldaImm imm8) := ⟨rfl, rfl⟩

theorem ldaZp (zp8 : Byte) : Statement (.ldaZp zp8) := ⟨rfl, rfl⟩

theorem ldaZpX (zp8 : Byte) : Statement (.ldaZpX zp8) := ⟨rfl, rfl⟩

theorem jsrAbs (target : Word) : Statement (.jsrAbs target) := ⟨rfl, rfl⟩

end Sys2Proof.Laws.EncodedLength
end

