-- ==== Sys2Proof/Laws/Step.lean ====
section
/-! SUPPORT. What one step can do, said once: one law per opcode and the case analysis over all of them. -/

namespace Sys2Proof.Machine

/-- The state JSR reaches from the boundary state `s` when it does not fault. -/
def afterJsr (s : State) : State :=
  { memWrite (s.SP + 1#16) (highByte (s.PC + 2#16)) (memWrite s.SP (lowByte (s.PC + 2#16)) s) with
    SP := s.SP + 1#16
    PC := joinBytes (memRead s (s.PC + 2#16)) (memRead s (s.PC + 1#16))
    cyc := s.cyc - 6 }

theorem memRead_afterJsr (s : State) (a : Word) :
    memRead (afterJsr s) a =
      if a = s.SP + 1#16 then highByte (s.PC + 2#16) else if a = s.SP then lowByte (s.PC + 2#16) else memRead s a := by
  change memRead (memWrite _ _ _) a = _
  simp

theorem step_illegal {s : State} (h : dispatch (memRead s s.PC) = none) :
    step s = .fault (.decodeFault (memRead s s.PC) s.PC (charge 1 (advancePC 1#16 s))) := by
  rw [step, fetchInstr_illegal h, andThen_fault]

theorem step_ldaImm {s : State} (h : memRead s s.PC = 0xA9#8) :
    step s = .next (loadA (memRead s (s.PC + 1#16)) (charge 2 (advancePC 2#16 s))) := by
  rw [step, fetchInstr_byte (by rw [h]; exact dispatch_ldaImm), andThen_next]
  rfl

theorem step_ldaZp {s : State} (h : memRead s s.PC = 0xA5#8) :
    step s = .next (loadA (memRead s (zeroPage (memRead s (s.PC + 1#16)))) (charge 3 (advancePC 2#16 s))) := by
  rw [step, fetchInstr_byte (by rw [h]; exact dispatch_ldaZp), andThen_next]
  simp [exec, execLdaZp_eq, charge_charge]

theorem step_ldaZpX {s : State} (h : memRead s s.PC = 0xB5#8) :
    step s = .next (loadA (memRead s (zeroPageX (memRead s (s.PC + 1#16)) s)) (charge 4 (advancePC 2#16 s))) := by
  rw [step, fetchInstr_byte (by rw [h]; exact dispatch_ldaZpX), andThen_next]
  simp [exec, execLdaZpX_eq, charge_charge, zeroPageX]

theorem step_jsr_fetchFault {s : State} (h : memRead s s.PC = 0x20#8) (hpc : s.PC = 0xFFFE#16) :
    step s = .fault (.addressingFault .fetchWord 0xFFFF#16 (charge 1 (advancePC 1#16 s))) := by
  rw [step, fetchInstr_word_top (by rw [h]; exact dispatch_jsrAbs) hpc, andThen_fault]

theorem step_jsr_storeFault {s : State} (h : memRead s s.PC = 0x20#8) (hpc : s.PC ≠ 0xFFFE#16)
    (hsp : s.SP = 0xFFFF#16) :
    step s = .fault (.addressingFault .writeWord 0xFFFF#16 (charge 3 (advancePC 3#16 s))) := by
  rw [step, fetchInstr_word (by rw [h]; exact dispatch_jsrAbs) hpc, andThen_next]
  exact execJsrAbs_top (by simpa using hsp) _

theorem step_jsr {s : State} (h : memRead s s.PC = 0x20#8) (hpc : s.PC ≠ 0xFFFE#16) (hsp : s.SP ≠ 0xFFFF#16) :
    step s = .next (afterJsr s) := by
  have ret : s.PC + 3#16 - 1#16 = s.PC + 2#16 := by bv_omega
  rw [step, fetchInstr_word (by rw [h]; exact dispatch_jsrAbs) hpc, andThen_next]
  refine (execJsrAbs_inRange (by simpa using hsp) _).trans ?_
  simp [ret, afterJsr, charge, memWrite, advancePC, Int.sub_sub]

/-- Everything a step can do: the three loads, JSR, its two faults, and the DecodeFault. -/
theorem step_cases (s : State) :
    (memRead s s.PC = 0xA9#8 ∧
      step s = .next (loadA (memRead s (s.PC + 1#16)) (charge 2 (advancePC 2#16 s)))) ∨
    (memRead s s.PC = 0xA5#8 ∧
      step s = .next (loadA (memRead s (zeroPage (memRead s (s.PC + 1#16)))) (charge 3 (advancePC 2#16 s)))) ∨
    (memRead s s.PC = 0xB5#8 ∧
      step s = .next (loadA (memRead s (zeroPageX (memRead s (s.PC + 1#16)) s)) (charge 4 (advancePC 2#16 s)))) ∨
    (memRead s s.PC = 0x20#8 ∧ s.PC ≠ 0xFFFE#16 ∧ s.SP ≠ 0xFFFF#16 ∧ step s = .next (afterJsr s)) ∨
    (memRead s s.PC = 0x20#8 ∧ s.PC = 0xFFFE#16 ∧
      step s = .fault (.addressingFault .fetchWord 0xFFFF#16 (charge 1 (advancePC 1#16 s)))) ∨
    (memRead s s.PC = 0x20#8 ∧ s.PC ≠ 0xFFFE#16 ∧ s.SP = 0xFFFF#16 ∧
      step s = .fault (.addressingFault .writeWord 0xFFFF#16 (charge 3 (advancePC 3#16 s)))) ∨
    (dispatch (memRead s s.PC) = none ∧
      step s = .fault (.decodeFault (memRead s s.PC) s.PC (charge 1 (advancePC 1#16 s)))) := by
  rcases dispatch_cases (memRead s s.PC) with ⟨h, -⟩ | ⟨h, -⟩ | ⟨h, -⟩ | ⟨h, -⟩ | ⟨-, h⟩
  · exact .inl ⟨h, step_ldaImm h⟩
  · exact .inr (.inl ⟨h, step_ldaZp h⟩)
  · exact .inr (.inr (.inl ⟨h, step_ldaZpX h⟩))
  · refine .inr (.inr (.inr ?_))
    by_cases hpc : s.PC = 0xFFFE#16
    · exact .inr (.inl ⟨h, hpc, step_jsr_fetchFault h hpc⟩)
    by_cases hsp : s.SP = 0xFFFF#16
    · exact .inr (.inr (.inl ⟨h, hpc, hsp, step_jsr_storeFault h hpc hsp⟩))
    · exact .inl ⟨h, hpc, hsp, step_jsr h hpc hsp⟩
  · exact .inr (.inr (.inr (.inr (.inr (.inr ⟨h, step_illegal h⟩)))))

end Sys2Proof.Machine
end

