-- ==== Sys2Proof/Tests/Slice0.lean ====
section
/-! SUPPORT. The model's tests. Expected results are taken from `spec/95_test_vectors.md` (the vector is named) or from
the rule named; the `witness_` theorems show that the hypotheses of the statements can be met. -/

namespace Sys2Proof.Tests

open Sys2Proof.Machine Sys2Proof.Safety

/-- `s` with bytes placed at `pc` and PC there. -/
def at_ (pc : Word) (bytes : List Byte) (s : State := State.reset) : State :=
  placeBytes pc bytes { s with PC := pc }

/-- The state a run goes on from. -/
def nextOf : Host.Outcome State Fault Refusal → Option State
  | .next t => some t
  | .fault _ => none
  | .refused _ => none

/-- The fault a run stops with. -/
def faultOf : Host.Outcome State Fault Refusal → Option Fault
  | .next _ => none
  | .fault f => some f
  | .refused _ => none

/-! ### Well-formedness: the instruction check refuses nothing (R54); the memory check refuses each kind of ill form -/

theorem test_wellFormed_all (i : Instr) : i.wellFormed = true := by cases i <;> rfl
theorem test_wf_refuses_unsorted : ¬ Memory.wf [(2, 1), (1, 1)] := by decide
theorem test_wf_refuses_repeat : ¬ Memory.wf [(1, 1), (1, 2)] := by decide
theorem test_wf_refuses_zero_entry : ¬ Memory.wf [(1, 0)] := by decide
theorem test_wf_refuses_out_of_range : ¬ Memory.wf [(65536, 1)] := by decide
theorem test_wf_accepts_last_cell : Memory.wf [(0, 1), (65535, 255)] := by decide

/-! ### Decoding: words written from the binary column of R53 and the formats of R51 -/

theorem test_decode_ldaImm : decodeTableWord 16 0b1000010010101001 = some (.ldaImm 0x84) := by decide
theorem test_decode_ldaZp : decodeTableWord 16 0b0001000010100101 = some (.ldaZp 0x10) := by decide
theorem test_decode_ldaZpX : decodeTableWord 16 0b1111000010110101 = some (.ldaZpX 0xF0) := by decide
theorem test_decode_jsrAbs : decodeTableWord 24 0b000100100011010000100000 = some (.jsrAbs 0x1234) := by decide
theorem test_decode_operand_bits_absent : decodeTableWord 8 0x20 = some (.jsrAbs 0) := by decide
theorem test_decode_zero_illegal : decodeTableWord 8 0x00 = none := by decide
theorem test_decode_illegal_by_name : (decode [0xEA]).toOption = none := by decide
theorem test_decode_truncated : (decode [0x20, 0x34]).toOption = none := by decide
theorem test_dispatch_four_rows : (dispatchTable.map (fun row => row.1)).Pairwise (· ≠ ·) := by decide

/-! ### The first instruction after reset -/

theorem test_first_instruction :
    (nextOf (step (State.reset.withFetchWord 24 0x424220))).map (fun t => (t.PC, t.SP, memRead t 0x0100, memRead t 0x0101)) =
      some (0x4242, 0x0101, 0xFE, 0xFF) := by decide  -- J1

/-! ### Loads -/

/-- L4: the five other flags keep their values, here 1. -/
theorem test_ldaImm_keeps_other_flags :
    (nextOf (step (at_ 0x0200 [0xA9, 0xFF] { State.reset with C := true, V := true, I := true, D := true, B := true }))).map
      (fun t => (t.A, t.Z, t.N, t.PC, t.cyc)) = some (0xFF, false, true, 0x0202, -2) := by decide
/-- L6. -/
theorem test_ldaImm_operand_wraps :
    (nextOf (step (at_ 0xFFFF [0xA9, 0x33]))).map (fun t => (t.A, t.PC)) = some (0x33, 0x0001) := by decide
/-- M3: 0x00FF is read and not 0x01FF. -/
theorem test_ldaZp_reads_zero_page :
    (nextOf (step (memWrite 0x00FF 0x01 (memWrite 0x01FF 0xEE (at_ 0x0200 [0xA5, 0xFF]))))).map
      (fun t => (t.A, t.Z, t.N, t.PC, t.cyc)) = some (0x01, false, false, 0x0202, -3) := by decide
/-- M5: the instruction reads its own opcode. -/
theorem test_ldaZp_reads_itself :
    (nextOf (step (at_ 0x0010 [0xA5, 0x10]))).map (fun t => (t.A, t.N)) = some (0xA5, true) := by decide
/-- I3: the index wraps inside the zero page. -/
theorem test_ldaZpX_wraps :
    (nextOf (step (memWrite 0x007F 0x01 (memWrite 0x017F 0xEE (at_ 0x0200 [0xB5, 0x80] { State.reset with X := 0xFF }))))).map
      (fun t => (t.A, t.X, t.PC, t.cyc)) = some (0x01, 0xFF, 0x0202, -4) := by decide
/-- I7: the carry of the index addition is discarded. -/
theorem test_ldaZpX_leaves_carry :
    (nextOf (step (memWrite 0x0000 0x09 (at_ 0x0200 [0xB5, 0x10] { State.reset with X := 0xF0 })))).map
      (fun t => (t.A, t.C)) = some (0x09, false) := by decide

/-! ### JSR -/

/-- J3: the stack lies on the instruction; the target was fetched before the store. -/
theorem test_jsr_overwrites_itself :
    (nextOf (step (at_ 0x0100 [0x20, 0x00, 0x05]))).map
      (fun t => (t.PC, t.SP, memRead t 0x0100, memRead t 0x0101, memRead t 0x0102)) =
      some (0x0500, 0x0101, 0x02, 0x01, 0x05) := by decide
/-- J7: neither 0xFFFF nor 0x0000 is written, and PC is not the target. -/
theorem test_jsr_store_faults :
    faultOf (step (at_ 0x0300 [0x20, 0x34, 0x12] { State.reset with SP := 0xFFFF })) =
      some (.addressingFault .writeWord 0xFFFF
        { State.reset with SP := 0xFFFF, PC := 0x0303, cyc := -3, mem := [(0x300, 0x20), (0x301, 0x34), (0x302, 0x12)] }) := by
  decide
/-- J9: the fetch fault is tested first. -/
theorem test_jsr_fetch_fault_first :
    (faultOf (step (at_ 0xFFFE [0x20] { State.reset with SP := 0xFFFF }))).map faultOutcome =
      some (.addressingFault .fetchWord 0xFFFF) := by decide

/-! ### Execute and the host -/

/-- X1. -/
theorem test_execute_empty_memory :
    execute 5 State.reset =
      some ⟨.decodeFault 0x00 0xFFFC, 4, { State.reset with PC := 0xFFFD, cyc := 4 }⟩ := by decide
/-- B3: one instruction runs on a budget of 1. -/
theorem test_execute_overrun :
    (execute 1 (at_ 0x0200 [0xA9, 0x01, 0xA9, 0x02])).map (fun r => (r.outcome, r.cyc, r.state.A, r.state.PC)) =
      some (.budgetExhausted, -1, 0x01, 0x0202) := by decide
/-- T1: a reset from a state with everything set. -/
theorem test_reset_forgets :
    resetCore ⟨0x1234, 0x0155, 0xFF, 0x11, 0x22, true, true, true, true, true, true, true,
      [(0x0000, 0xAA), (0xFFFC, 0x20), (0xFFFF, 0xBB)], 7⟩ = { State.reset with cyc := 7 } := by decide
/-- A write of 0x00 removes the entry, so that equal memories are equal lists (R36, log entry 6). -/
theorem test_write_zero_removes : (memWrite 0x0010 0x00 (memWrite 0x0010 0x7F State.reset)).mem = [] := by decide
/-- R104: the session's first fault stays recorded over a later Reset. -/
theorem test_session_keeps_first_fault :
    ((hostAct (.execute 1) ⟨State.reset, none, none⟩).bind (hostAct .reset)).map (fun h => h.firstFault) =
      some (some (.decodeFault 0x00 0xFFFC)) := by decide

/-! ### Witnesses: states that meet the hypotheses of the statements -/

theorem witness_DecodeAcceptsOnlyEncodings :
    decode [0x20, 0x00, 0xFF, 0x77] = .ok (.jsrAbs 0xFF00, [0x77]) := rfl
theorem witness_DecodeRefusesExactlyIllegalOpcodes :
    (0x21#8 ≠ 0x20#8 ∧ 0x21#8 ≠ 0xA5#8 ∧ 0x21#8 ≠ 0xA9#8 ∧ 0x21#8 ≠ 0xB5#8) ∧
    decode [0x21] = .error (.illegalOpcode 0x21) := ⟨by decide, rfl⟩

/-- JSR $4242 in the last place where its operand word fits below 0xFFFF. -/
def jsrAtTop : State := at_ 0xFFFD [0x20, 0x42, 0x42]

theorem witness_StepRunsDecodedInstruction :
    decode [memRead jsrAtTop jsrAtTop.PC, memRead jsrAtTop (jsrAtTop.PC + 1#16), memRead jsrAtTop (jsrAtTop.PC + 2#16)] =
      .ok (.jsrAbs 0x4242, []) ∧
    ∀ target, Instr.jsrAbs 0x4242 = .jsrAbs target → jsrAtTop.PC ≠ 0xFFFE#16 := ⟨rfl, fun _ _ => by decide⟩
theorem witness_LoadsComplete :
    memRead (memWrite 0x00FF 0x80 State.reset) (BitVec.ofNat 16 (0xFF#8).toNat) = 0x80 ∧
    memRead (memWrite 0x0000 0x80 State.reset)
      (BitVec.ofNat 16 (((0xFF#8).toNat + ({ State.reset with X := 1 } : State).X.toNat) % 256)) = 0x80 := by decide
theorem witness_JsrCompletes :
    ({ State.reset with SP := 0xFFFE } : State).SP ≠ 0xFFFF#16 ∧
    ({ State.reset with SP := 0xFFFF } : State).SP = 0xFFFF#16 := by decide
theorem witness_LoadsFrame :
    (∀ target, Instr.ldaImm 0x80 ≠ .jsrAbs target) ∧ (∀ target, Instr.ldaZp 0xFF ≠ .jsrAbs target) ∧
    (∀ target, Instr.ldaZpX 0xFF ≠ .jsrAbs target) ∧ (∃ t, exec (.ldaImm 0x80) State.reset = .next t) ∧
    (∃ t, exec (.ldaZp 0xFF) State.reset = .next t) ∧ ∃ t, exec (.ldaZpX 0xFF) State.reset = .next t :=
  ⟨nofun, nofun, nofun, ⟨_, rfl⟩, ⟨_, rfl⟩, _, rfl⟩
theorem witness_JsrFrame :
    (∃ t, exec (.jsrAbs 0x4242) { State.reset with SP := 0xFFFE } = .next t) ∧
    stackSlot { State.reset with SP := 0xFFFE } = 0xFFFE ∧
    (0x0000#16 ≠ 0xFFFE#16 ∧ 0x0000#16 ≠ 0xFFFE#16 + 1#16) := ⟨⟨_, rfl⟩, rfl, by decide⟩
theorem witness_LdaImmInstruction :
    memRead (at_ 0xFFFF [0xA9, 0x80]) 0xFFFF = 0xA9#8 ∧ memRead (at_ 0xFFFF [0xA9, 0x80]) (0xFFFF + 1#16) = 0x80 := by
  decide
theorem witness_LdaZpInstruction :
    memRead (at_ 0x0010 [0xA5, 0x11]) 0x0010 = 0xA5#8 ∧ memRead (at_ 0x0010 [0xA5, 0x11]) (0x0010 + 1#16) = 0x11 ∧
    memRead (at_ 0x0010 [0xA5, 0x11]) (BitVec.ofNat 16 (0x11#8).toNat) = 0x11 := by decide

/-- I4: LDA $FF,X with X = 1. -/
def indexWraps : State := at_ 0x0200 [0xB5, 0xFF] { State.reset with X := 0x01 }

theorem witness_LdaZpXInstruction :
    memRead indexWraps indexWraps.PC = 0xB5#8 ∧ memRead indexWraps (indexWraps.PC + 1#16) = 0xFF ∧
    memRead indexWraps (BitVec.ofNat 16 (((0xFF#8).toNat + indexWraps.X.toNat) % 256)) = 0x00 ∧
    State.reset.X = 0#8 := by decide

/-- JSR at 0xFFFE, and JSR with the stack at the top of memory and one below it. -/
def jsrAtFFFE : State := at_ 0xFFFE [0x20]
def jsrStackTop : State := at_ 0x0300 [0x20, 0x34, 0x12] { State.reset with SP := 0xFFFF }
def jsrStackFFFE : State := at_ 0x0300 [0x20, 0x34, 0x12] { State.reset with SP := 0xFFFE }
/-- The last JSR before the clause on 0xFFFE and the first after it. -/
def jsrAtFFFF : State := at_ 0xFFFF [0x20, 0x00, 0x07]

theorem witness_JsrInstruction :
    (memRead jsrAtFFFE jsrAtFFFE.PC = 0x20#8 ∧ jsrAtFFFE.PC = 0xFFFE#16) ∧
    (memRead jsrStackTop jsrStackTop.PC = 0x20#8 ∧ jsrStackTop.PC ≠ 0xFFFE#16 ∧ jsrStackTop.SP = 0xFFFF#16) ∧
    (memRead jsrStackFFFE jsrStackFFFE.PC = 0x20#8 ∧ jsrStackFFFE.PC ≠ 0xFFFE#16 ∧ jsrStackFFFE.SP ≠ 0xFFFF#16) := by
  decide

/-- X2: an illegal opcode. -/
def illegalAt0200 : State := at_ 0x0200 [0xEA]

theorem witness_IllegalOpcodeFaults :
    (memRead illegalAt0200 illegalAt0200.PC = 0xEA ∧
      0xEA#8 ≠ 0x20#8 ∧ 0xEA#8 ≠ 0xA5#8 ∧ 0xEA#8 ≠ 0xA9#8 ∧ 0xEA#8 ≠ 0xB5#8) ∧
    ∃ left, step illegalAt0200 = .fault (.decodeFault 0xEA 0x0200 left) := ⟨by decide, _, rfl⟩

theorem witness_InstructionsAtTopOfMemory_loads :
    memRead (at_ 0xFFFD [0xA9, 0x33]) 0xFFFD = 0xA9#8 ∧ memRead (at_ 0xFFFE [0xA9, 0x33]) 0xFFFE = 0xA9#8 ∧
    memRead (at_ 0xFFFF [0xA9, 0x33]) 0xFFFF = 0xA9#8 ∧ memRead (at_ 0xFFFD [0xA5, 0x33]) 0xFFFD = 0xA5#8 ∧
    memRead (at_ 0xFFFE [0xA5, 0x33]) 0xFFFE = 0xA5#8 ∧ memRead (at_ 0xFFFF [0xA5, 0x33]) 0xFFFF = 0xA5#8 ∧
    memRead (at_ 0xFFFD [0xB5, 0x33]) 0xFFFD = 0xB5#8 ∧ memRead (at_ 0xFFFE [0xB5, 0x33]) 0xFFFE = 0xB5#8 ∧
    memRead (at_ 0xFFFF [0xB5, 0x33]) 0xFFFF = 0xB5#8 := by decide
theorem witness_InstructionsAtTopOfMemory_jsr :
    (memRead jsrAtTop jsrAtTop.PC = 0x20#8 ∧ jsrAtTop.SP ≠ 0xFFFF#16 ∧ jsrAtTop.PC = 0xFFFD#16) ∧
    (memRead jsrAtFFFF jsrAtFFFF.PC = 0x20#8 ∧ jsrAtFFFF.SP ≠ 0xFFFF#16 ∧ jsrAtFFFF.PC = 0xFFFF#16) ∧
    (memRead jsrAtFFFE jsrAtFFFE.PC = 0x20#8 ∧ jsrAtFFFE.PC = 0xFFFE#16) := by decide
theorem witness_FlagComputation_table :
    (0x00#8).toNat = 0 ∧ (1 ≤ (0x01#8).toNat ∧ (0x01#8).toNat ≤ 0x7F) ∧ (1 ≤ (0x7F#8).toNat ∧ (0x7F#8).toNat ≤ 0x7F) ∧
    0x80 ≤ (0x80#8).toNat ∧ 0x80 ≤ (0xFF#8).toNat := by decide
theorem witness_FlagComputation_exec :
    (∃ t, exec (.ldaZp 0xFF) State.reset = .next t) ∧ (∀ target, Instr.ldaZp 0xFF ≠ .jsrAbs target) ∧
    ∃ t, exec (.jsrAbs 0x4242) State.reset = .next t := ⟨⟨_, rfl⟩, nofun, _, rfl⟩
theorem witness_FetchByteReadsAtPC : (at_ 0xFFFF [0x5A]).PC = 0xFFFF#16 := by decide  -- V2
theorem witness_FetchWordReadsAtPC :
    (at_ 0xFFFE [0xCD, 0xAB]).PC = 0xFFFE#16 ∧ ∃ t, fetchWord (at_ 0xFFFE [0xCD, 0xAB]) = .next (0xABCD, t) :=
  ⟨by decide, _, rfl⟩  -- V5
theorem witness_WriteChangesOneCell : 0x0000#16 ≠ 0xFFFF#16 := by decide
theorem witness_WriteWordStoresLittleEndian :
    (∃ addr : Word, addr = 0xFFFF#16) ∧ 0xFFFE#16 ≠ 0xFFFF#16 ∧ (0x0000#16 ≠ 0xFFFE#16 ∧ 0x0000#16 ≠ 0xFFFE#16 + 1#16) := by
  decide
theorem witness_WordWriteThenFetch : ∃ t, writeWord 0xFFFE 0x1234 State.reset = .next t := ⟨_, rfl⟩  -- V10
theorem witness_AddressingFaultCauses :
    (∃ left, step jsrAtFFFE = .fault (.addressingFault .fetchWord 0xFFFF left)) ∧
    (∃ left, step jsrStackTop = .fault (.addressingFault .writeWord 0xFFFF left)) ∧
    (∃ f, fetchWord { State.reset with PC := 0xFFFF } = .fault f) ∧
    ∃ f, writeWord 0xFFFF 0x1234 State.reset = .fault f := ⟨⟨_, rfl⟩, ⟨_, rfl⟩, ⟨_, rfl⟩, _, rfl⟩
theorem witness_FaultLeavesRegistersAndMemory :
    (∃ f, step jsrAtFFFE = .fault f) ∧ (∃ f, step jsrStackTop = .fault f) ∧ ∃ f, step illegalAt0200 = .fault f :=
  ⟨⟨_, rfl⟩, ⟨_, rfl⟩, _, rfl⟩

/-- A next state of each instruction, for the statements about every step. -/
theorem witness_step_next :
    (∃ t, step (at_ 0x0200 [0xA9, 0x00]) = .next t) ∧ (∃ t, step (at_ 0x0200 [0xA5, 0x10]) = .next t) ∧
    (∃ t, step indexWraps = .next t) ∧ ∃ t, step jsrStackFFFE = .next t := ⟨⟨_, rfl⟩, ⟨_, rfl⟩, ⟨_, rfl⟩, _, rfl⟩
theorem witness_StepNeverWritesInertState : ∃ t, step jsrStackFFFE = .next t := ⟨_, rfl⟩
theorem witness_OnlyJsrStores :
    ∃ t, step jsrStackFFFE = .next t ∧ memRead t 0xFFFE ≠ memRead jsrStackFFFE 0xFFFE ∧
      memRead t 0xFFFF ≠ memRead jsrStackFFFE 0xFFFF := ⟨_, rfl, by decide⟩
theorem witness_OnlyJsrTransfersControl :
    ((∃ t, step indexWraps = .next t) ∧ memRead indexWraps indexWraps.PC ≠ 0x20#8) ∧
    (∃ t, step jsrStackFFFE = .next t) ∧ memRead jsrStackFFFE jsrStackFFFE.PC = 0x20#8 :=
  ⟨⟨⟨_, rfl⟩, by decide⟩, ⟨_, rfl⟩, by decide⟩
theorem witness_StepChargesTableTotals :
    (∃ t, step indexWraps = .next t) ∧ (∃ left, step illegalAt0200 = .fault (.decodeFault 0xEA 0x0200 left)) ∧
    (∃ left, step jsrAtFFFE = .fault (.addressingFault .fetchWord 0xFFFF left)) ∧
    ∃ left, step jsrStackTop = .fault (.addressingFault .writeWord 0xFFFF left) :=
  ⟨⟨_, rfl⟩, ⟨_, rfl⟩, ⟨_, rfl⟩, _, rfl⟩
theorem witness_BudgetIsInvisible :
    (∃ t, step jsrStackFFFE = .next t) ∧ (∃ left, step jsrAtFFFE = .fault (.addressingFault .fetchWord 0xFFFF left)) ∧
    ∃ left, step illegalAt0200 = .fault (.decodeFault 0xEA 0x0200 left) := ⟨⟨_, rfl⟩, ⟨_, rfl⟩, _, rfl⟩
/-- The two memories agree on the zero page and differ at 0x0100. -/
theorem witness_LoadsReadOnlyZeroPage :
    (∀ a : Word, a.toNat ≤ 0xFF →
      memRead { memWrite 0x00FF 0x80 State.reset with mem := [(0x00FF, 0x80), (0x0100, 0xEE)] } a =
        memRead (memWrite 0x00FF 0x80 State.reset) a) ∧
    (∀ target, Instr.ldaZp 0xFF ≠ .jsrAbs target) ∧
    ∃ t, exec (.ldaZp 0xFF) (memWrite 0x00FF 0x80 State.reset) = .next t := by
  refine ⟨fun a h => ?_, nofun, _, rfl⟩
  have e : (memWrite 0x00FF 0x80 State.reset).mem = [(0x00FF, 0x80)] := by decide
  simp only [memRead, e, Memory.read]
  split
  · rfl
  · rw [if_neg (by omega)]

/-- JSR $0100 right after reset (R97 item 5). -/
def jsrToStack : State := at_ 0xFFFC [0x20, 0x00, 0x01]

theorem witness_JsrIntoItsStackSlot :
    memRead jsrToStack jsrToStack.PC = 0x20#8 ∧
    joinBytes (memRead jsrToStack (jsrToStack.PC + 2#16)) (memRead jsrToStack (jsrToStack.PC + 1#16)) = jsrToStack.SP ∧
    ∃ t, step jsrToStack = .next t := ⟨by decide, by decide, _, rfl⟩
/-- J10: a JSR to itself, twice. -/
theorem witness_JsrRunStackLayout : ∃ u, JsrRun (at_ 0x0400 [0x20, 0x00, 0x04]) [0x0400, 0x0400] u :=
  ⟨_, .cons _ _ _ _ (by decide) rfl (.cons _ _ _ _ (by decide) rfl (.nil _))⟩
theorem witness_StepKeepsMemoryCanonical :
    jsrStackFFFE.mem.wf ∧ (∃ t, step jsrStackFFFE = .next t) ∧ jsrStackTop.mem.wf ∧ ∃ f, step jsrStackTop = .fault f :=
  ⟨by decide, ⟨_, rfl⟩, by decide, _, rfl⟩
theorem witness_CanonicalMemoryIsUnique :
    jsrAtTop.mem.wf ∧ ({ jsrAtTop with A := 1 } : State).mem.wf ∧
    ∀ a, memRead jsrAtTop a = memRead { jsrAtTop with A := 1 } a := ⟨by decide, by decide, fun _ => rfl⟩
theorem witness_StepKeepsStackAboveBase :
    StackAboveBase jsrToStack ∧ (∃ t, step jsrToStack = .next t) ∧ (0x00FF#16).toNat < 0x0100 :=
  ⟨by unfold StackAboveBase; decide, ⟨_, rfl⟩, by decide⟩
theorem witness_StepKeepsFlagsDisjoint : FlagsDisjoint indexWraps ∧ ∃ t, step indexWraps = .next t := ⟨rfl, _, rfl⟩
theorem witness_ReachableStatesMeetInvariants : Reachable (memWrite 0xFFFC 0xA9 (resetCore State.reset)) :=
  .write _ _ _ (.reset _)
theorem witness_ResetValues : ({ State.reset with A := 1 } : State).cyc = State.reset.cyc := rfl
theorem witness_ExecuteIsBudgetLoop :
    ¬ (0 : Int) < 0 ∧ ((0 : Int) < 1 ∧ ∃ t, step { jsrStackFFFE with cyc := 1 } = .next t) ∧
    (∃ left, step { jsrAtFFFE with cyc := 1 } = .fault (.addressingFault .fetchWord 0xFFFF left)) ∧
    ∃ left, step { illegalAt0200 with cyc := 1 } = .fault (.decodeFault 0xEA 0x0200 left) :=
  ⟨by decide, ⟨by decide, _, rfl⟩, ⟨_, rfl⟩, _, rfl⟩
theorem witness_ExecuteWithoutBudget : (0 : Int) ≤ 0 ∧ (-3 : Int) ≤ 0 := by decide  -- B1, B2
theorem witness_BudgetOverrunBound :
    ((1 : Int) ≤ 1 ∧ ∃ r, execute 1 jsrStackFFFE = some r ∧ r.outcome = .budgetExhausted) ∧
    (memRead jsrStackFFFE jsrStackFFFE.PC = 0x20#8 ∧ jsrStackFFFE.PC ≠ 0xFFFE#16 ∧ jsrStackFFFE.SP ≠ 0xFFFF#16) :=
  ⟨⟨by decide, _, rfl, rfl⟩, by decide⟩
theorem witness_BudgetSplits :
    (0 : Int) ≤ 2 ∧ ∃ t, execute 6 jsrAtTop = some ⟨.budgetExhausted, 0, t⟩ := ⟨by decide, _, rfl⟩
theorem witness_SessionRecordsFirstFault :
    (∃ h : Session, h.firstFault = some (.decodeFault 0xEA 0x0200)) ∧
    ((⟨illegalAt0200, none, none⟩ : Session).firstFault = none ∧
      ∃ r, execute 1 (⟨illegalAt0200, none, none⟩ : Session).core = some r) :=
  ⟨⟨⟨illegalAt0200, none, some (.decodeFault 0xEA 0x0200)⟩, rfl⟩, rfl, _, rfl⟩

end Sys2Proof.Tests
end

section
/-! The family `10_state.md`: what `Reset` leaves. -/

namespace Sys2Proof.Machine

/-- R26: every cell holds 0x00 after `Reset`. -/
@[simp] theorem memRead_resetCore (s : State) (a : Word) : memRead (resetCore s) a = 0x00#8 :=
  memRead_memInit _ a

/-- R120: of the prior state, `Reset` sees the budget only. -/
theorem resetCore_eq_of_cyc_eq {s s' : State} (sameBudget : s'.cyc = s.cyc) : resetCore s' = resetCore s := by
  rw [resetCore_eq, resetCore_eq, sameBudget]

/-- R121. -/
@[simp] theorem resetCore_resetCore (s : State) : resetCore (resetCore s) = resetCore s :=
  resetCore_eq_of_cyc_eq (resetCore_cyc s)

/-- Settles O40: the values are those of the fields of `resetCore`; that a second `Reset` changes nothing is the case of
the independence from the prior state in which that state is itself just reset. -/
theorem resetValues : Obligations.ResetValues := fun s =>
  ⟨resetCore_PC s, resetCore_SP s,
    resetCore_A s, resetCore_X s, resetCore_Y s,
    resetCore_C s, resetCore_Z s, resetCore_I s, resetCore_D s, resetCore_B s, resetCore_V s, resetCore_N s,
    memRead_resetCore s, resetCore_cyc s,
    resetCore_resetCore s, fun _ => resetCore_eq_of_cyc_eq⟩

end Sys2Proof.Machine
end

section
/-! The family `20_memory.md`: what the MemoryBus writes leave, and what is read back after them. -/

namespace Sys2Proof.Machine

open Sys2Proof.Safety

/-- R33: a write touches no register and no flag. -/
theorem memWrite_sameRegisters (addr : Word) (v : Byte) (s : State) : SameRegisters s (memWrite addr v s) := by
  simp [SameRegisters, SameInert]

/-- Settles O20: the two reads are the two branches of the law of a read after a write. -/
theorem writeChangesOneCell : Obligations.WriteChangesOneCell := by
  intro addr v s
  refine ⟨?_, fun a other => ?_, memWrite_sameRegisters addr v s, memWrite_PC addr v s, memWrite_cyc addr v s⟩
  · rw [memRead_memWrite, if_pos rfl]
  · rw [memRead_memWrite, if_neg other]

/-- A WriteWord that answers a next state was not at the last address, and that state is its two byte writes with the
charge (R34). -/
theorem eq_of_writeWord_next {addr w : Word} {s t : State} (written : writeWord addr w s = .next t) :
    addr ≠ 0xFFFF#16 ∧ t = charge 2 (memWrite (addr + 1#16) (highByte w) (memWrite addr (lowByte w) s)) := by
  by_cases top : addr = 0xFFFF#16
  · rw [top, writeWord_top] at written
    cases written
  · rw [writeWord_inRange top] at written
    cases written
    exact ⟨top, rfl⟩

/-- R37: every byte read after a WriteWord, the low byte at its address and the high byte after it. -/
theorem memRead_of_writeWord_next {addr w : Word} {s t : State} (written : writeWord addr w s = .next t) (a : Word) :
    memRead t a = if a = addr + 1#16 then highByte w else if a = addr then lowByte w else memRead s a := by
  obtain ⟨-, rfl⟩ := eq_of_writeWord_next written
  simp

/-- FetchWord with PC placed at an address below the last one returns the two bytes there, low byte first (R66). -/
theorem fetchWord_at {addr : Word} (inRange : addr ≠ 0xFFFF#16) (t : State) :
    fetchWord { t with PC := addr } =
      .next (joinBytes (memRead t (addr + 1#16)) (memRead t addr), charge 2 (advancePC 2#16 { t with PC := addr })) :=
  fetchWord_inRange inRange

/-- Settles O22: the high byte lands beside the low byte and not on it, and joining the two gives the word back. -/
theorem wordWriteThenFetch : Obligations.WordWriteThenFetch := by
  intro addr w s t written
  obtain ⟨inRange, -⟩ := eq_of_writeWord_next written
  have reads := memRead_of_writeWord_next written
  have apart : addr ≠ addr + 1#16 := by bv_omega
  have low : memRead t addr = lowByte w := by rw [reads, if_neg apart, if_pos rfl]
  have high : memRead t (addr + 1#16) = highByte w := by rw [reads, if_pos rfl]
  refine ⟨low, high, charge 2 (advancePC 2#16 { t with PC := addr }), ?_⟩
  rw [fetchWord_at inRange, high, low, joinBytes_high_low]

end Sys2Proof.Machine
end

section
/-! The family `40_fetch_execute.md`: the budget loop, and the read beside the instruction stream. -/

namespace Sys2Proof.Machine

/-- R67. -/
theorem readByte_eq (addr : Word) (s : State) : readByte addr s = (memRead s addr, { s with cyc := s.cyc - 1 }) := rfl

/-- Settles O19: ReadByte is one memory read and one charge. -/
theorem readByteLeavesPC : Obligations.ReadByteLeavesPC := readByte_eq

@[simp] theorem afterJsr_cyc (s : State) : (afterJsr s).cyc = s.cyc - 6 := rfl

/-- R74: a step takes at least 2 cycles from the budget, or it faults. -/
theorem step_next_or_fault (s : State) :
    (∃ t, step s = .next t ∧ t.cyc + 2 ≤ s.cyc) ∨ ∃ f, step s = .fault f := by
  rcases step_cases s with
    ⟨-, immediate⟩ | ⟨-, direct⟩ | ⟨-, indexed⟩ | ⟨-, -, -, jsr⟩ | ⟨-, -, fetchFault⟩ | ⟨-, -, -, storeFault⟩ |
      ⟨-, illegal⟩
  · exact .inl ⟨_, immediate, by simp⟩
  · exact .inl ⟨_, direct, by simp; omega⟩
  · exact .inl ⟨_, indexed, by simp; omega⟩
  · exact .inl ⟨_, jsr, by simp; omega⟩
  · exact .inr ⟨_, fetchFault⟩
  · exact .inr ⟨_, storeFault⟩
  · exact .inr ⟨_, illegal⟩

/-- R74: the cycles of a completed step. -/
theorem cyc_of_step_next {s t : State} (stepped : step s = .next t) : t.cyc + 2 ≤ s.cyc := by
  rcases step_next_or_fault s with ⟨u, stepped', spent⟩ | ⟨f, faulted⟩
  · cases stepped.symm.trans stepped'
    exact spent
  · cases stepped.symm.trans faulted

/-- R74, log entry 8: any two limits that allow an instruction for every 2 cycles of the budget give the same run. -/
theorem executeWithin_eq_of_enough {m n : Nat} {s : State} (hm : s.cyc ≤ 2 * m) (hn : s.cyc ≤ 2 * n) :
    executeWithin m s = executeWithin n s := by
  induction m generalizing n s with
  | zero =>
    have spent : ¬ 0 < s.cyc := by omega
    rw [executeWithin_exhausted spent, executeWithin_exhausted spent]
  | succ m ih =>
    by_cases running : 0 < s.cyc
    · obtain ⟨n, rfl⟩ : ∃ k, n = k + 1 := Nat.exists_eq_succ_of_ne_zero (by omega)
      rcases step_next_or_fault s with ⟨t, stepped, spent⟩ | ⟨f, faulted⟩
      · rw [executeWithin_next running stepped, executeWithin_next running stepped]
        exact ih (by omega) (by omega)
      · rw [executeWithin_fault running faulted, executeWithin_fault running faulted]
    · rw [executeWithin_exhausted running, executeWithin_exhausted running]

/-- R74, log entry 8: Execute is the loop under any limit that allows an instruction for every 2 cycles of the budget. -/
theorem execute_eq_executeWithin {b : Int} {limit : Nat} (enough : b ≤ 2 * limit) (s : State) :
    execute b s = executeWithin limit { s with cyc := b } :=
  executeWithin_eq_of_enough (show b ≤ 2 * b.toNat by omega) enough

/-- R70, R73: a call without budget. -/
theorem execute_exhausted {b : Int} (spent : ¬ 0 < b) (s : State) :
    execute b s = some ⟨.budgetExhausted, b, { s with cyc := b }⟩ :=
  executeWithin_exhausted (s := { s with cyc := b }) spent _

/-- R70: one turn of the loop. The run after the step has a limit that fits the old budget, so it also fits what is left
of it. -/
theorem execute_next {b : Int} {s t : State} (running : 0 < b) (stepped : step { s with cyc := b } = .next t) :
    execute b s = execute t.cyc t := by
  have spent : t.cyc + 2 ≤ b := cyc_of_step_next stepped
  calc execute b s
    _ = executeWithin (b.toNat + 1) { s with cyc := b } := execute_eq_executeWithin (by omega) s
    _ = executeWithin b.toNat t := executeWithin_next running stepped _
    _ = execute t.cyc t := (execute_eq_executeWithin (by omega) t).symm

/-- R70, R103: a step that faults ends the call. -/
theorem execute_fault {b : Int} {s : State} {f : Fault} (running : 0 < b)
    (faulted : step { s with cyc := b } = .fault f) : execute b s = some (returnFault f) := by
  rw [execute_eq_executeWithin (limit := b.toNat + 1) (by omega), executeWithin_fault running faulted]

/-- Settles O41: the limit hidden in `execute` fits the budget before a step and what the step leaves of it, so the loop
can be unrolled once. -/
theorem executeIsBudgetLoop : Obligations.ExecuteIsBudgetLoop := fun _ s =>
  ⟨fun spent => execute_exhausted spent s,
    fun running _ => execute_next running,
    fun running _ _ _ => execute_fault running,
    fun running _ _ _ => execute_fault running⟩

end Sys2Proof.Machine
end

section
/-! The family `41_load_accumulator.md`: the loads as whole instructions. The laws of a step give the state each one
leaves; what is left is to read the loaded flags and the addresses as R85 and R52 write them. -/

namespace Sys2Proof.Machine

/-- R85 in the form of R86: bit 7 is what the mask 0x80 keeps. -/
theorem negativeFlag_eq_mask (v : Byte) : negativeFlag v = ((v &&& 0x80#8) != 0#8) := by
  have mask : v &&& 0x80#8 = if v.getLsbD 7 then 0x80#8 else 0#8 := BitVec.and_twoPow v 7
  rw [mask, negativeFlag]
  cases v.getLsbD 7 <;> rfl

/-- R85 to R88: all that a load leaves behind once its operand is consumed and its cycles are charged. -/
theorem loadA_charge_advancePC (v : Byte) (k : Int) (n : Word) (s : State) :
    loadA v (charge k (advancePC n s)) =
      { s with A := v, Z := v == 0#8, N := (v &&& 0x80#8) != 0#8, PC := s.PC + n, cyc := s.cyc - k } := by
  rw [← negativeFlag_eq_mask]
  rfl

theorem zeroPage_eq_ofNat (p : Byte) : zeroPage p = BitVec.ofNat 16 p.toNat :=
  (BitVec.ofNat_toNat 16 p).symm

theorem zeroPageX_eq_zeroPage (p : Byte) (s : State) : zeroPageX p s = zeroPage (p + s.X) := rfl

/-- R52: the indexed address is the sum reduced modulo 256. -/
theorem zeroPageX_eq_ofNat (p : Byte) (s : State) :
    zeroPageX p s = BitVec.ofNat 16 ((p.toNat + s.X.toNat) % 256) := by
  rw [zeroPageX_eq_zeroPage, zeroPage_eq_ofNat, BitVec.toNat_add]

/-- R88 with X = 0: the address is that of LDA zp, and of the two cycles one is charged beforehand. -/
theorem execLdaZpX_of_X_eq_zero {s : State} (noIndex : s.X = 0#8) (p : Byte) :
    execLdaZpX p s = execLdaZp p (charge 1 s) := by
  have sameAddress : zeroPageX p s = zeroPage p := by rw [zeroPageX_eq_zeroPage, noIndex, BitVec.add_zero]
  rw [execLdaZpX_eq, execLdaZp_eq, sameAddress, charge_charge, memRead_charge]
  rfl

/-- Settles O12: the law of the step, with the address read as a sum modulo 256. -/
theorem ldaZpXInstruction : Obligations.LdaZpXInstruction := by
  refine ⟨?_, fun s p noIndex => execLdaZpX_of_X_eq_zero noIndex p⟩
  rintro s p v opcode rfl rfl
  rw [step_ldaZpX opcode, zeroPageX_eq_ofNat, loadA_charge_advancePC]

/-- Settles O10: the law of the step. -/
theorem ldaImmInstruction : Obligations.LdaImmInstruction := by
  rintro s v opcode rfl
  rw [step_ldaImm opcode, loadA_charge_advancePC]

/-- Settles O11: the law of the step, with the operand widened to an address. -/
theorem ldaZpInstruction : Obligations.LdaZpInstruction := by
  rintro s p v opcode rfl rfl
  rw [step_ldaZp opcode, zeroPage_eq_ofNat, loadA_charge_advancePC]

end Sys2Proof.Machine
end

section
/-! The family 'other': the decoder beside its encoder, what every step can change, the invariants of the model, and the
runs of `Execute` and of a session. -/

namespace Sys2Proof.Machine

open Sys2Proof.Safety

/-! ### The decoder (`30_encoding.md`) -/

/-- R53, R54: the bytes that have no handler. -/
theorem dispatch_eq_none_iff (opcode : Byte) :
    dispatch opcode = none ↔ opcode ≠ 0x20#8 ∧ opcode ≠ 0xA5#8 ∧ opcode ≠ 0xA9#8 ∧ opcode ≠ 0xB5#8 := by
  rcases dispatch_cases opcode with ⟨rfl, -⟩ | ⟨rfl, -⟩ | ⟨rfl, -⟩ | ⟨rfl, -⟩ |
    ⟨⟨notA9, notA5, notB5, not20⟩, illegal⟩
  · simp
  · simp
  · simp
  · simp
  · simp [illegal, notA9, notA5, notB5, not20]

theorem decode_fetchesByte {opcode : Byte} {instr : Byte → Instr}
    (handled : dispatch opcode = some (.fetchesByte instr)) (operand : Byte) (rest : List Byte) :
    decode (opcode :: operand :: rest) = .ok (instr operand, rest) := by
  simp [decode, handled]

theorem decode_fetchesWord {opcode : Byte} {instr : Word → Instr}
    (handled : dispatch opcode = some (.fetchesWord instr)) (lo hi : Byte) (rest : List Byte) :
    decode (opcode :: lo :: hi :: rest) = .ok (instr (joinBytes hi lo), rest) := by
  simp [decode, handled]

/-- R54: the decoder reports an opcode as illegal exactly when dispatch finds no handler; a missing operand is reported
as such. -/
theorem decode_eq_illegalOpcode_iff (opcode : Byte) (operands : List Byte) :
    decode (opcode :: operands) = .error (.illegalOpcode opcode) ↔ dispatch opcode = none := by
  match handled : dispatch opcode, operands with
  | none, _ => simp [decode, handled]
  | some (.fetchesByte _), [] => simp [decode, handled]
  | some (.fetchesByte _), _ :: _ => simp [decode, handled]
  | some (.fetchesWord _), [] => simp [decode, handled]
  | some (.fetchesWord _), [_] => simp [decode, handled]
  | some (.fetchesWord _), _ :: _ :: _ => simp [decode, handled]

/-- The decoder with a one-byte operand answers that operand and the bytes after it, or nothing. -/
theorem eq_of_decode_fetchesByte {opcode : Byte} {instr : Byte → Instr} {operands rest : List Byte} {i : Instr}
    (handled : dispatch opcode = some (.fetchesByte instr)) (decoded : decode (opcode :: operands) = .ok (i, rest)) :
    ∃ operand, operands = operand :: rest ∧ i = instr operand := by
  match operands with
  | [] => simp [decode, handled] at decoded
  | operand :: _ =>
    rw [decode_fetchesByte handled] at decoded
    cases decoded
    exact ⟨operand, rfl, rfl⟩

/-- The decoder with a word operand answers the word of the next two bytes and the bytes after them, or nothing. -/
theorem eq_of_decode_fetchesWord {opcode : Byte} {instr : Word → Instr} {operands rest : List Byte} {i : Instr}
    (handled : dispatch opcode = some (.fetchesWord instr)) (decoded : decode (opcode :: operands) = .ok (i, rest)) :
    ∃ lo hi, operands = lo :: hi :: rest ∧ i = instr (joinBytes hi lo) := by
  match operands with
  | [] => simp [decode, handled] at decoded
  | [_] => simp [decode, handled] at decoded
  | lo :: hi :: _ =>
    rw [decode_fetchesWord handled] at decoded
    cases decoded
    exact ⟨lo, hi, rfl, rfl⟩

/-- Settles O1: the encoder's opcode selects the handler of the same instruction, and for JSR the two operand bytes join
to the target they were split from. -/
theorem decodeInvertsEncode : Obligations.DecodeInvertsEncode := by
  intro i rest
  cases i with
  | ldaImm imm8 => exact decode_fetchesByte dispatch_ldaImm imm8 rest
  | ldaZp zp8 => exact decode_fetchesByte dispatch_ldaZp zp8 rest
  | ldaZpX zp8 => exact decode_fetchesByte dispatch_ldaZpX zp8 rest
  | jsrAbs target =>
    calc decode (0x20#8 :: lowByte target :: highByte target :: rest)
      _ = .ok (.jsrAbs (joinBytes (highByte target) (lowByte target)), rest) :=
        decode_fetchesWord dispatch_jsrAbs _ _ rest
      _ = .ok (.jsrAbs target, rest) := by rw [joinBytes_high_low]

/-- Settles O2: the opcode is that of a row of the dispatch table, whose handler takes the operand bytes of that row's
format. -/
theorem decodeAcceptsOnlyEncodings : Obligations.DecodeAcceptsOnlyEncodings := by
  rintro (_ | ⟨opcode, operands⟩) rest i decoded
  · cases decoded
  rcases dispatch_cases opcode with ⟨rfl, handled⟩ | ⟨rfl, handled⟩ | ⟨rfl, handled⟩ | ⟨rfl, handled⟩ | ⟨-, illegal⟩
  · obtain ⟨imm8, rfl, rfl⟩ := eq_of_decode_fetchesByte handled decoded
    rfl
  · obtain ⟨zp8, rfl, rfl⟩ := eq_of_decode_fetchesByte handled decoded
    rfl
  · obtain ⟨zp8, rfl, rfl⟩ := eq_of_decode_fetchesByte handled decoded
    rfl
  · obtain ⟨lo, hi, rfl, rfl⟩ := eq_of_decode_fetchesWord handled decoded
    simp [encode, lowByte_joinBytes, highByte_joinBytes]
  · rw [(decode_eq_illegalOpcode_iff opcode operands).mpr illegal] at decoded
    cases decoded

/-- Settles O3: the decoder refuses what dispatch has no handler for. -/
theorem decodeRefusesExactlyIllegalOpcodes : Obligations.DecodeRefusesExactlyIllegalOpcodes := fun opcode operands =>
  (decode_eq_illegalOpcode_iff opcode operands).trans (dispatch_eq_none_iff opcode)

/-- Settles O4: each of the words is the encoding of the instruction that the spec's table gives for it. -/
theorem specWordsDecode : Obligations.SpecWordsDecode :=
  ⟨decodeInvertsEncode (.ldaImm 0x84) [], decodeInvertsEncode (.ldaZp 0x10) [], decodeInvertsEncode (.ldaZpX 0xF0) [],
    decodeInvertsEncode (.jsrAbs 0x1234) []⟩

/-! ### What a step can change -/

@[simp] theorem afterJsr_PC (s : State) :
    (afterJsr s).PC = joinBytes (memRead s (s.PC + 2#16)) (memRead s (s.PC + 1#16)) := rfl
@[simp] theorem afterJsr_SP (s : State) : (afterJsr s).SP = s.SP + 1#16 := rfl
@[simp] theorem afterJsr_A (s : State) : (afterJsr s).A = s.A := rfl
@[simp] theorem afterJsr_X (s : State) : (afterJsr s).X = s.X := rfl
@[simp] theorem afterJsr_Y (s : State) : (afterJsr s).Y = s.Y := rfl
@[simp] theorem afterJsr_C (s : State) : (afterJsr s).C = s.C := rfl
@[simp] theorem afterJsr_Z (s : State) : (afterJsr s).Z = s.Z := rfl
@[simp] theorem afterJsr_I (s : State) : (afterJsr s).I = s.I := rfl
@[simp] theorem afterJsr_D (s : State) : (afterJsr s).D = s.D := rfl
@[simp] theorem afterJsr_B (s : State) : (afterJsr s).B = s.B := rfl
@[simp] theorem afterJsr_V (s : State) : (afterJsr s).V = s.V := rfl
@[simp] theorem afterJsr_N (s : State) : (afterJsr s).N = s.N := rfl
@[simp] theorem afterJsr_mem (s : State) :
    (afterJsr s).mem =
      (memWrite (s.SP + 1#16) (highByte (s.PC + 2#16)) (memWrite s.SP (lowByte (s.PC + 2#16)) s)).mem := rfl

/-- R128: the opcodes of the loads, each with its total of cycles. -/
def LoadCycles (opcode : Byte) (cycles : Int) : Prop :=
  (opcode = 0xA9#8 ∧ cycles = 2) ∨ (opcode = 0xA5#8 ∧ cycles = 3) ∨ (opcode = 0xB5#8 ∧ cycles = 4)

theorem LoadCycles.ne_jsr {opcode : Byte} {cycles : Int} (load : LoadCycles opcode cycles) : opcode ≠ 0x20#8 := by
  rcases load with ⟨rfl, -⟩ | ⟨rfl, -⟩ | ⟨rfl, -⟩ <;> decide

/-- The two kinds of completed steps: a load puts some byte into A and takes the cycles of its opcode; JSR. -/
theorem step_next_cases {s t : State} (stepped : step s = .next t) :
    (∃ v cycles, LoadCycles (memRead s s.PC) cycles ∧ t = loadA v (charge cycles (advancePC 2#16 s))) ∨
    (memRead s s.PC = 0x20#8 ∧ s.SP ≠ 0xFFFF#16 ∧ t = afterJsr s) := by
  rcases step_cases s with
    ⟨opcode, result⟩ | ⟨opcode, result⟩ | ⟨opcode, result⟩ | ⟨opcode, -, inRange, result⟩ | ⟨-, -, result⟩ |
      ⟨-, -, -, result⟩ | ⟨-, result⟩ <;> cases result.symm.trans stepped
  · exact .inl ⟨_, 2, .inl ⟨opcode, rfl⟩, rfl⟩
  · exact .inl ⟨_, 3, .inr (.inl ⟨opcode, rfl⟩), rfl⟩
  · exact .inl ⟨_, 4, .inr (.inr ⟨opcode, rfl⟩), rfl⟩
  · exact .inr ⟨opcode, inRange, rfl⟩

/-- The three faults of a step, each with its cause and all that it leaves (R96, R101, R102). -/
theorem step_fault_cases {s : State} {f : Fault} (faulted : step s = .fault f) :
    (memRead s s.PC = 0x20#8 ∧ s.PC = 0xFFFE#16 ∧
      f = .addressingFault .fetchWord 0xFFFF#16 (charge 1 (advancePC 1#16 s))) ∨
    (memRead s s.PC = 0x20#8 ∧ s.PC ≠ 0xFFFE#16 ∧ s.SP = 0xFFFF#16 ∧
      f = .addressingFault .writeWord 0xFFFF#16 (charge 3 (advancePC 3#16 s))) ∨
    (dispatch (memRead s s.PC) = none ∧
      f = .decodeFault (memRead s s.PC) s.PC (charge 1 (advancePC 1#16 s))) := by
  rcases step_cases s with
    ⟨-, result⟩ | ⟨-, result⟩ | ⟨-, result⟩ | ⟨-, -, -, result⟩ | ⟨opcode, atFFFE, result⟩ |
      ⟨opcode, notFFFE, stackTop, result⟩ | ⟨illegal, result⟩ <;> cases result.symm.trans faulted
  · exact .inl ⟨opcode, atFFFE, rfl⟩
  · exact .inr (.inl ⟨opcode, notFFFE, stackTop, rfl⟩)
  · exact .inr (.inr ⟨illegal, rfl⟩)

/-- R103: what a fault leaves is the state the instruction met, with PC moved and cycles charged. -/
theorem faultLeft_of_step_fault {s : State} {f : Fault} (faulted : step s = .fault f) :
    ∃ k n, faultLeft f = charge k (advancePC n s) := by
  rcases step_fault_cases faulted with ⟨-, -, rfl⟩ | ⟨-, -, -, rfl⟩ | ⟨-, rfl⟩ <;> exact ⟨_, _, rfl⟩

/-- R17: SP does not wrap in a JSR that completes. -/
theorem toNat_afterJsr_SP {s : State} (inRange : s.SP ≠ 0xFFFF#16) : (afterJsr s).SP.toNat = s.SP.toNat + 1 := by
  rw [afterJsr_SP]
  bv_omega

/-- R90: JSR stores to its stack slot only. -/
theorem memRead_afterJsr_other {s : State} {a : Word} (notLow : a ≠ s.SP) (notHigh : a ≠ s.SP + 1#16) :
    memRead (afterJsr s) a = memRead s a := by
  rw [memRead_afterJsr, if_neg notHigh, if_neg notLow]

theorem memRead_afterJsr_low (s : State) : memRead (afterJsr s) s.SP = lowByte (s.PC + 2#16) := by
  have apart : s.SP ≠ s.SP + 1#16 := by bv_omega
  rw [memRead_afterJsr, if_neg apart, if_pos rfl]

theorem memRead_afterJsr_high (s : State) : memRead (afterJsr s) (s.SP + 1#16) = highByte (s.PC + 2#16) := by
  rw [memRead_afterJsr, if_pos rfl]

/-- R127: the cells below the stack slot keep their bytes; the slot does not wrap to them. -/
theorem memRead_afterJsr_below {s : State} (inRange : s.SP ≠ 0xFFFF#16) {a : Word} (below : a.toNat < s.SP.toNat) :
    memRead (afterJsr s) a = memRead s a :=
  memRead_afterJsr_other (by bv_omega) (by bv_omega)

theorem afterJsr_wf {s : State} (canonical : s.mem.wf) : (afterJsr s).mem.wf := by
  rw [afterJsr_mem]
  exact memWrite_wf (memWrite_wf canonical _ _) _ _

/-- The next state of a step has its memory in canonical form when the state before has. -/
theorem wf_of_step_next {s t : State} (canonical : s.mem.wf) (stepped : step s = .next t) : t.mem.wf := by
  rcases step_next_cases stepped with ⟨v, cycles, -, rfl⟩ | ⟨-, -, rfl⟩
  · exact canonical
  · exact afterJsr_wf canonical

/-- A fault stores nothing, so the memory it leaves is the memory the step met. -/
theorem wf_of_step_fault {s : State} {f : Fault} (canonical : s.mem.wf) (faulted : step s = .fault f) :
    (faultLeft f).mem.wf := by
  obtain ⟨k, n, left⟩ := faultLeft_of_step_fault faulted
  rw [left]
  exact canonical

/-- Settles O34: of what a step can do, only the two byte writes of JSR touch memory, and a byte write keeps the form. -/
theorem stepKeepsMemoryCanonical : Obligations.StepKeepsMemoryCanonical := fun _ canonical =>
  ⟨fun _ => wf_of_step_next canonical, fun _ => wf_of_step_fault canonical⟩

/-- R17: a load leaves SP, and JSR raises it. -/
theorem stackAboveBase_of_step_next {s t : State} (above : StackAboveBase s) (stepped : step s = .next t) :
    StackAboveBase t := by
  rcases step_next_cases stepped with ⟨v, cycles, -, rfl⟩ | ⟨-, inRange, rfl⟩
  · exact above
  · rw [StackAboveBase, toNat_afterJsr_SP inRange]
    exact Nat.le_succ_of_le above

/-- Settles O36: SP only rises, and the one store of the hardware goes to SP and the address after it, neither of which
is below 0x0100. -/
theorem stepKeepsStackAboveBase : Obligations.StepKeepsStackAboveBase := by
  intro s t above stepped
  refine ⟨stackAboveBase_of_step_next above stepped, fun a zeroPage => ?_⟩
  rcases step_next_cases stepped with ⟨v, cycles, -, rfl⟩ | ⟨-, inRange, rfl⟩
  · simp
  · exact memRead_afterJsr_below inRange (Nat.lt_of_lt_of_le zeroPage above)

end Sys2Proof.Machine
end

section
/-! The family 'other', its functional statements: each instruction and each fault as the spec writes them, what no step
changes, and what a step does not depend on. -/

namespace Sys2Proof.Machine

open Sys2Proof.Safety

/-! ### Words and bytes as numbers (R5, R37) -/

theorem lowByte_eq_ofNat (w : Word) : lowByte w = BitVec.ofNat 8 w.toNat := by
  apply BitVec.eq_of_toNat_eq
  rw [toNat_lowByte, BitVec.toNat_ofNat]

theorem highByte_eq_ofNat (w : Word) : highByte w = BitVec.ofNat 8 (w.toNat / 256) := by
  have fits : w.toNat / 256 < 2 ^ 8 := Nat.div_lt_of_lt_mul w.isLt
  apply BitVec.eq_of_toNat_eq
  rw [toNat_highByte, BitVec.toNat_ofNat, Nat.mod_eq_of_lt fits]

theorem joinBytes_eq_ofNat (hi lo : Byte) : joinBytes hi lo = BitVec.ofNat 16 (hi.toNat * 256 + lo.toNat) := by
  rw [← toNat_joinBytes, BitVec.ofNat_toNat, BitVec.setWidth_eq]

/-! ### Primitives (`40_fetch_execute.md` section 1, `20_memory.md` section 2) -/

theorem charge_advancePC (k : Int) (n : Word) (s : State) :
    charge k (advancePC n s) = { s with PC := s.PC + n, cyc := s.cyc - k } := rfl

/-- Settles O17: FetchByte is one memory read, one step of PC and one charge, and 0xFFFF + 1 is 0x0000. -/
theorem fetchByteReadsAtPC : Obligations.FetchByteReadsAtPC := by
  refine fun s => ⟨rfl, fun atTop => ⟨by rw [← atTop]; rfl, ?_⟩⟩
  change s.PC + 1#16 = 0x0000#16
  rw [atTop]
  rfl

theorem memReadWord_eq (addr : Word) (s : State) :
    memReadWord addr s =
      if addr = 0xFFFF#16 then .fault (.addressingFault .fetchWord 0xFFFF#16 s)
      else .next (joinBytes (memRead s (addr + 1#16)) (memRead s addr)) := by
  by_cases top : addr = 0xFFFF#16
  · rw [if_pos top, top]
    rfl
  · simp [memReadWord, Config.lastAddress, top]

theorem fetchWord_eq (s : State) :
    fetchWord s =
      if s.PC = 0xFFFF#16 then .fault (.addressingFault .fetchWord 0xFFFF#16 s)
      else .next (joinBytes (memRead s (s.PC + 1#16)) (memRead s s.PC), charge 2 (advancePC 2#16 s)) := by
  by_cases top : s.PC = 0xFFFF#16
  · rw [if_pos top, fetchWord_top top]
  · rw [if_neg top, fetchWord_inRange top]

/-- Settles O18: the two branches of each word read, with the joined bytes read as a number; 0xFFFE + 2 is 0x0000. -/
theorem fetchWordReadsAtPC : Obligations.FetchWordReadsAtPC := by
  refine ⟨fun addr s => ?_, fun s => ?_, fun s t w atFFFE fetched => ?_⟩
  · rw [memReadWord_eq, joinBytes_eq_ofNat]
  · rw [fetchWord_eq, joinBytes_eq_ofNat, charge_advancePC]
  · have inRange : s.PC ≠ 0xFFFF#16 := by rw [atFFFE]; decide
    rw [fetchWord_inRange inRange] at fetched
    cases fetched
    simp [atFFFE]

/-- R34: a WriteWord touches no register and no flag, leaves PC and takes 2 cycles. -/
theorem writeWord_frame {addr w : Word} {s t : State} (written : writeWord addr w s = .next t) :
    SameRegisters s t ∧ t.PC = s.PC ∧ t.cyc = s.cyc - 2 := by
  obtain ⟨-, rfl⟩ := eq_of_writeWord_next written
  simp [SameRegisters, SameInert]

theorem memRead_low_of_writeWord_next {addr w : Word} {s t : State} (written : writeWord addr w s = .next t) :
    memRead t addr = BitVec.ofNat 8 w.toNat := by
  have apart : addr ≠ addr + 1#16 := by bv_omega
  rw [memRead_of_writeWord_next written, if_neg apart, if_pos rfl, lowByte_eq_ofNat]

theorem memRead_high_of_writeWord_next {addr w : Word} {s t : State} (written : writeWord addr w s = .next t) :
    memRead t (addr + 1#16) = BitVec.ofNat 8 (w.toNat / 256) := by
  rw [memRead_of_writeWord_next written, if_pos rfl, highByte_eq_ofNat]

theorem memRead_other_of_writeWord_next {addr w : Word} {s t : State} (written : writeWord addr w s = .next t)
    {a : Word} (notLow : a ≠ addr) (notHigh : a ≠ addr + 1#16) : memRead t a = memRead s a := by
  rw [memRead_of_writeWord_next written, if_neg notHigh, if_neg notLow]

/-- A WriteWord below the last address answers a next state. -/
theorem exists_writeWord_next {addr : Word} (inRange : addr ≠ 0xFFFF#16) (w : Word) (s : State) :
    ∃ t, writeWord addr w s = .next t := ⟨_, writeWord_inRange inRange w s⟩

/-- R34, R40: the only fault of WriteWord. -/
theorem eq_of_writeWord_fault {addr w : Word} {s : State} {f : Fault} (faulted : writeWord addr w s = .fault f) :
    f = .addressingFault .writeWord 0xFFFF#16 s := by
  by_cases top : addr = 0xFFFF#16
  · rw [top, writeWord_top] at faulted
    cases faulted
    rfl
  · rw [writeWord_inRange top] at faulted
    cases faulted

/-- R35, R40: the only fault of FetchWord. -/
theorem eq_of_fetchWord_fault {s : State} {f : Fault} (faulted : fetchWord s = .fault f) :
    f = .addressingFault .fetchWord 0xFFFF#16 s := by
  by_cases top : s.PC = 0xFFFF#16
  · rw [fetchWord_top top] at faulted
    cases faulted
    rfl
  · rw [fetchWord_inRange top] at faulted
    cases faulted

/-- Settles O21: the fault at the last address, and elsewhere the reads and the frame of the two byte writes. -/
theorem writeWordStoresLittleEndian : Obligations.WriteWordStoresLittleEndian := by
  refine fun addr w s => ⟨fun top => by rw [top, writeWord_top], fun inRange => ?_⟩
  obtain ⟨t, written⟩ := exists_writeWord_next inRange w s
  exact ⟨t, written, memRead_low_of_writeWord_next written, memRead_high_of_writeWord_next written,
    fun _ => memRead_other_of_writeWord_next written, writeWord_frame written⟩

/-! ### The meanings: the loads (`41_load_accumulator.md`) -/

theorem exec_ldaImm (imm8 : Byte) (s : State) : exec (.ldaImm imm8) s = .next (loadA imm8 s) := rfl

theorem exec_ldaZp (zp8 : Byte) (s : State) :
    exec (.ldaZp zp8) s = .next (loadA (memRead s (zeroPage zp8)) (charge 1 s)) := execLdaZp_eq zp8 s

theorem exec_ldaZpX (zp8 : Byte) (s : State) :
    exec (.ldaZpX zp8) s = .next (loadA (memRead s (zeroPageX zp8 s)) (charge 2 s)) := execLdaZpX_eq zp8 s

/-- R85: all that a load writes. -/
theorem loadA_eq (v : Byte) (s : State) :
    loadA v s = { s with A := v, Z := v == 0#8, N := (v &&& 0x80#8) != 0#8 } := by
  rw [← negativeFlag_eq_mask]
  rfl

/-- R85 to R88: the loads that complete put some byte into A and charge some cycles beyond the operand's. -/
theorem eq_of_exec_load {i : Instr} {s t : State} (load : ∀ target, i ≠ .jsrAbs target) (executed : exec i s = .next t) :
    ∃ v k, t = loadA v (charge k s) := by
  cases i with
  | ldaImm imm8 =>
    cases executed
    exact ⟨imm8, 0, by simp [charge]⟩
  | ldaZp zp8 =>
    cases (exec_ldaZp zp8 s).symm.trans executed
    exact ⟨_, _, rfl⟩
  | ldaZpX zp8 =>
    cases (exec_ldaZpX zp8 s).symm.trans executed
    exact ⟨_, _, rfl⟩
  | jsrAbs target => exact absurd rfl (load target)

/-- R20: a load keeps the registers and flags that no instruction writes, whatever it charges. -/
theorem sameInert_loadA_charge (v : Byte) (k : Int) (s : State) : SameInert s (loadA v (charge k s)) := by
  simp [SameInert]

/-- Settles O6: the meanings of the loads, with the address of the byte read as R87 and R88 write it. -/
theorem loadsComplete : Obligations.LoadsComplete := by
  refine fun operand s => ⟨?_, ?_, ?_⟩
  · rw [exec_ldaImm, loadA_eq]
  · rintro v rfl
    rw [exec_ldaZp, zeroPage_eq_ofNat, loadA_eq]
    rfl
  · rintro v rfl
    rw [exec_ldaZpX, zeroPageX_eq_ofNat, loadA_eq]
    rfl

/-- Settles O8: a load puts a byte into A with its flags and charges cycles, nothing else. -/
theorem loadsFrame : Obligations.LoadsFrame := by
  intro i s t load executed
  obtain ⟨v, k, rfl⟩ := eq_of_exec_load load executed
  exact ⟨rfl, rfl, sameInert_loadA_charge v k s, fun _ => rfl⟩

/-- R52: the zero page ends at 0x00FF. -/
theorem toNat_zeroPage_le (zp8 : Byte) : (zeroPage zp8).toNat ≤ 0xFF := by
  rw [zeroPage, BitVec.toNat_setWidth_of_le (by decide)]
  exact Nat.le_of_lt_succ zp8.isLt

/-- Settles O31: the operand is already in the instruction, so the one byte a load reads from memory is at an address of
the zero page. -/
theorem loadsReadOnlyZeroPage : Obligations.LoadsReadOnlyZeroPage := by
  intro s m agree i t load executed
  cases i with
  | ldaImm imm8 =>
    cases executed
    rfl
  | ldaZp zp8 =>
    cases (exec_ldaZp zp8 s).symm.trans executed
    rw [exec_ldaZp, agree _ (toNat_zeroPage_le zp8)]
    rfl
  | ldaZpX zp8 =>
    cases (exec_ldaZpX zp8 s).symm.trans executed
    have sameAddress : zeroPageX zp8 { s with mem := m } = zeroPage (zp8 + s.X) := rfl
    rw [exec_ldaZpX, sameAddress, agree _ (toNat_zeroPage_le _)]
    rfl
  | jsrAbs target => exact absurd rfl (load target)

/-! ### The meanings: JSR (`42_jump_subroutine.md`) -/

/-- R95: JSR is the store of the return address at SP, and after it SP, PC and one more cycle. -/
theorem exec_jsrAbs (target : Word) (s : State) :
    exec (.jsrAbs target) s =
      andThen (writeWord s.SP (s.PC - 1#16) s) fun u => .next (charge 1 { u with SP := u.SP + 1#16, PC := target }) :=
  rfl

theorem exec_jsrAbs_of_writeWord_next {s u : State} (stored : writeWord s.SP (s.PC - 1#16) s = .next u)
    (target : Word) : exec (.jsrAbs target) s = .next (charge 1 { u with SP := u.SP + 1#16, PC := target }) := by
  rw [exec_jsrAbs, stored, andThen_next]

theorem eq_of_exec_jsrAbs {target : Word} {s t : State} (executed : exec (.jsrAbs target) s = .next t) :
    ∃ u, writeWord s.SP (s.PC - 1#16) s = .next u ∧ t = charge 1 { u with SP := u.SP + 1#16, PC := target } := by
  rw [exec_jsrAbs, andThen_eq_next] at executed
  obtain ⟨u, stored, moved⟩ := executed
  cases moved
  exact ⟨u, stored, rfl⟩

/-- Settles O7: whether JSR completes is whether its store does, and the store gives the two bytes. -/
theorem jsrCompletes : Obligations.JsrCompletes := by
  refine fun target s => ⟨fun inRange => ?_, fun stackTop => execJsrAbs_top stackTop target⟩
  obtain ⟨u, stored⟩ := exists_writeWord_next inRange (s.PC - 1#16) s
  obtain ⟨⟨sameSP, -⟩, -, cycles⟩ := writeWord_frame stored
  have low := memRead_low_of_writeWord_next stored
  have high := memRead_high_of_writeWord_next stored
  refine ⟨_, exec_jsrAbs_of_writeWord_next stored target, rfl, ?_, ?_, low, high⟩
  · simp [sameSP]
  · simp only [charge_cyc, cycles]
    omega

/-- Settles O9: the frame is that of the store; what JSR does after it writes PC, SP and the budget. -/
theorem jsrFrame : Obligations.JsrFrame := by
  intro target s t executed
  obtain ⟨u, stored, rfl⟩ := eq_of_exec_jsrAbs executed
  obtain ⟨⟨-, sameA, sameZ, sameN, sameInert⟩, -, -⟩ := writeWord_frame stored
  refine ⟨sameA, sameZ, sameN, sameInert, ?_⟩
  rintro slot rfl a notLow notHigh
  exact memRead_other_of_writeWord_next stored notLow notHigh

/-! ### Whole instructions -/

/-- R69: a step is its fetch, and then the meaning of what was fetched. -/
theorem step_of_fetchInstr_next {s u : State} {i : Instr} (fetched : fetchInstr s = .next (i, u)) :
    step s = exec i u := by
  rw [step, fetched, andThen_next]

/-- Settles O5: by O2 the bytes at PC are the encoding of the decoded instruction, so the fetch takes its opcode's handler
and reads its operand. -/
theorem stepRunsDecodedInstruction : Obligations.StepRunsDecodedInstruction := by
  intro s i rest decoded notTop
  have bytes := decodeAcceptsOnlyEncodings _ _ _ decoded
  apply step_of_fetchInstr_next
  cases i with
  | ldaImm imm8 =>
    obtain ⟨opcode, operand, -⟩ : memRead s s.PC = 0xA9#8 ∧ memRead s (s.PC + 1#16) = imm8 ∧ _ := by
      simpa [encode] using bytes
    rw [fetchInstr_byte (by rw [opcode]; exact dispatch_ldaImm), operand]
    rfl
  | ldaZp zp8 =>
    obtain ⟨opcode, operand, -⟩ : memRead s s.PC = 0xA5#8 ∧ memRead s (s.PC + 1#16) = zp8 ∧ _ := by
      simpa [encode] using bytes
    rw [fetchInstr_byte (by rw [opcode]; exact dispatch_ldaZp), operand]
    rfl
  | ldaZpX zp8 =>
    obtain ⟨opcode, operand, -⟩ : memRead s s.PC = 0xB5#8 ∧ memRead s (s.PC + 1#16) = zp8 ∧ _ := by
      simpa [encode] using bytes
    rw [fetchInstr_byte (by rw [opcode]; exact dispatch_ldaZpX), operand]
    rfl
  | jsrAbs target =>
    obtain ⟨opcode, low, high, -⟩ : memRead s s.PC = 0x20#8 ∧ memRead s (s.PC + 1#16) = lowByte target ∧
        memRead s (s.PC + 2#16) = highByte target ∧ _ := by
      simpa [encode] using bytes
    rw [fetchInstr_word (by rw [opcode]; exact dispatch_jsrAbs) (notTop target rfl), low, high, joinBytes_high_low]
    rfl

/-- R95: JSR keeps A and every flag. -/
theorem afterJsr_frame (s : State) :
    (afterJsr s).A = s.A ∧ (afterJsr s).Z = s.Z ∧ (afterJsr s).N = s.N ∧ SameInert s (afterJsr s) := by
  simp [SameInert]

/-- Settles O13: the three laws of a step at a JSR opcode, with PC and the stored bytes read as numbers. -/
theorem jsrInstruction : Obligations.JsrInstruction := by
  refine fun s opcode => ⟨fun atFFFE => ?_, fun notFFFE stackTop => ?_, fun notFFFE inRange => ?_⟩
  · rw [step_jsr_fetchFault opcode atFFFE, charge_advancePC, atFFFE]
    rfl
  · rw [step_jsr_storeFault opcode notFFFE stackTop, charge_advancePC]
  · refine ⟨afterJsr s, step_jsr opcode notFFFE inRange, ?_, afterJsr_SP s, afterJsr_cyc s, ?_, ?_,
      fun _ => memRead_afterJsr_other, afterJsr_frame s⟩
    · rw [afterJsr_PC, joinBytes_eq_ofNat]
    · rw [memRead_afterJsr_low, lowByte_eq_ofNat]
    · rw [memRead_afterJsr_high, highByte_eq_ofNat]

/-- Settles O15: at each of the listed addresses the operand is at PC + 1 (and PC + 2) modulo 2^16, where the laws of the
whole instructions place it. -/
theorem instructionsAtTopOfMemory : Obligations.InstructionsAtTopOfMemory := by
  refine ⟨fun s operandAt endPC place => ?_, fun s lowAt highAt returnTo opcode inRange place => ?_,
    fun s opcode atFFFE => ⟨_, step_jsr_fetchFault opcode atFFFE⟩⟩
  · obtain ⟨rfl, rfl⟩ : operandAt = s.PC + 1#16 ∧ endPC = s.PC + 2#16 := by
      rcases place with ⟨pc, rfl, rfl⟩ | ⟨pc, rfl, rfl⟩ | ⟨pc, rfl, rfl⟩ <;> rw [pc] <;> decide
    exact ⟨fun opcode => ⟨_, ldaImmInstruction s _ opcode rfl, rfl, rfl⟩,
      fun opcode => ⟨_, ldaZpInstruction s _ _ opcode rfl rfl, rfl, rfl⟩,
      fun opcode => ⟨_, ldaZpXInstruction.1 s _ _ opcode rfl rfl, rfl, rfl⟩⟩
  · obtain ⟨notFFFE, rfl, rfl, rfl⟩ :
        s.PC ≠ 0xFFFE#16 ∧ lowAt = s.PC + 1#16 ∧ highAt = s.PC + 2#16 ∧ returnTo = s.PC + 2#16 := by
      rcases place with ⟨pc, rfl, rfl, rfl⟩ | ⟨pc, rfl, rfl, rfl⟩ <;> rw [pc] <;> decide
    refine ⟨afterJsr s, step_jsr opcode notFFFE inRange, afterJsr_PC s, ?_⟩
    rw [memRead_afterJsr_high, memRead_afterJsr_low, joinBytes_high_low]

/-- Settles O32: PC becomes the fetched target, which is SP, and the low byte of the return address is stored there. -/
theorem jsrIntoItsStackSlot : Obligations.JsrIntoItsStackSlot := by
  intro s t opcode ownSlot stepped
  rcases step_next_cases stepped with ⟨v, cycles, load, -⟩ | ⟨-, -, rfl⟩
  · exact absurd opcode load.ne_jsr
  · have arrived : (afterJsr s).PC = s.SP := ownSlot
    exact ⟨arrived, by rw [arrived, memRead_afterJsr_low, lowByte_eq_ofNat]⟩

/-! ### Faults (`60_exceptions.md`) -/

/-- Settles O14: an opcode is illegal when dispatch has no handler for it, and of the faults of a step only the one of that
case is a DecodeFault; after `Reset` PC points at a cell that holds 0x00, which is such an opcode. -/
theorem illegalOpcodeFaults : Obligations.IllegalOpcodeFaults := by
  refine ⟨?_, fun s left opcode pc faulted => ?_, fun s => ?_⟩
  · rintro s _ rfl not20 notA5 notA9 notB5
    rw [step_illegal ((dispatch_eq_none_iff _).mpr ⟨not20, notA5, notA9, notB5⟩), charge_advancePC]
  · rcases step_fault_cases faulted with ⟨-, -, other⟩ | ⟨-, -, -, other⟩ | ⟨illegal, same⟩
    · cases other
    · cases other
    · cases same
      exact ⟨rfl, rfl, (dispatch_eq_none_iff _).mp illegal⟩
  · rw [execute_fault (by decide) (step_illegal rfl)]
    rfl

/-- Settles O23: of the faults of a step, one is FetchWord's and one is WriteWord's. -/
theorem addressingFaultCauses : Obligations.AddressingFaultCauses := by
  refine ⟨fun s addr => ⟨?_, ?_⟩, fun s addr => ⟨?_, ?_⟩,
    fun s w f => ⟨eq_of_fetchWord_fault, fun _ => eq_of_writeWord_fault⟩⟩
  · rintro ⟨left, faulted⟩
    rcases step_fault_cases faulted with ⟨opcode, atFFFE, same⟩ | ⟨-, -, -, other⟩ | ⟨-, other⟩
    · cases same
      exact ⟨opcode, atFFFE, rfl⟩
    · cases other
    · cases other
  · rintro ⟨opcode, atFFFE, rfl⟩
    exact ⟨_, step_jsr_fetchFault opcode atFFFE⟩
  · rintro ⟨left, faulted⟩
    rcases step_fault_cases faulted with ⟨-, -, other⟩ | ⟨opcode, notFFFE, stackTop, same⟩ | ⟨-, other⟩
    · cases other
    · cases same
      exact ⟨opcode, notFFFE, stackTop, rfl⟩
    · cases other
  · rintro ⟨opcode, notFFFE, stackTop, rfl⟩
    exact ⟨_, step_jsr_storeFault opcode notFFFE stackTop⟩

/-- Settles O24: a fault leaves the state with PC moved and cycles charged. -/
theorem faultLeavesRegistersAndMemory : Obligations.FaultLeavesRegistersAndMemory := by
  intro s f faulted
  obtain ⟨k, n, left⟩ := faultLeft_of_step_fault faulted
  rw [left]
  exact ⟨by simp [SameRegisters, SameInert], fun _ => rfl⟩

/-- Settles O25: a step completes or faults. -/
theorem stepNeverRefuses : Obligations.StepNeverRefuses := by
  intro s r refused
  rcases step_next_or_fault s with ⟨t, stepped, -⟩ | ⟨f, faulted⟩
  · cases stepped.symm.trans refused
  · cases faulted.symm.trans refused

/-! ### Flags (`41_load_accumulator.md` section 1) -/

theorem zeroFlag_eq (v : Byte) : zeroFlag v = decide (v.toNat = 0) := by
  simp [zeroFlag, BitVec.toNat_eq, beq_eq_decide]

/-- R85: bit 7 is the top bit of the byte. -/
theorem negativeFlag_eq (v : Byte) : negativeFlag v = decide (0x80 ≤ v.toNat) := by
  rw [negativeFlag, ← BitVec.msb_eq_getLsbD_last, BitVec.msb_eq_decide]

/-- R85: no byte is both zero and negative. -/
theorem zeroFlag_and_negativeFlag (v : Byte) : (zeroFlag v && negativeFlag v) = false := by
  rw [zeroFlag_eq, negativeFlag_eq]
  by_cases zero : v.toNat = 0 <;> simp [zero]

/-- Settles O16: the table from both flags as comparisons of the byte's value; a load sets them from A, JSR and `Reset`
do not compute them. -/
theorem flagComputation : Obligations.FlagComputation := by
  refine ⟨fun v s => ⟨zeroFlag v, negativeFlag v, rfl, ?_, ?_, ?_⟩, fun i s t executed load => ?_,
    fun target s t executed => ?_, fun s => ⟨rfl, rfl⟩⟩
  · intro zero
    simp [zeroFlag_eq, negativeFlag_eq, zero]
  · intro positive small
    rw [zeroFlag_eq, negativeFlag_eq, decide_eq_false_iff_not, decide_eq_false_iff_not]
    omega
  · intro large
    rw [zeroFlag_eq, negativeFlag_eq, decide_eq_false_iff_not, decide_eq_true_iff]
    omega
  · obtain ⟨v, k, rfl⟩ := eq_of_exec_load load executed
    exact ⟨rfl, negativeFlag_eq_mask v, sameInert_loadA_charge v k s⟩
  · obtain ⟨-, sameZ, sameN, -⟩ := jsrFrame target s t executed
    exact ⟨sameZ, sameN⟩

/-- R85: a load leaves Z and N disjoint whatever they were, and JSR keeps both. -/
theorem flagsDisjoint_of_step_next {s t : State} (disjoint : FlagsDisjoint s) (stepped : step s = .next t) :
    FlagsDisjoint t := by
  rcases step_next_cases stepped with ⟨v, cycles, -, rfl⟩ | ⟨-, -, rfl⟩
  · exact zeroFlag_and_negativeFlag v
  · exact disjoint

/-- Settles O37: a step computes the flags of one byte or keeps them. -/
theorem stepKeepsFlagsDisjoint : Obligations.StepKeepsFlagsDisjoint := fun _ _ => flagsDisjoint_of_step_next

/-! ### What a step does not change -/

/-- Settles O26: neither a load nor JSR writes the inert registers and flags. -/
theorem stepNeverWritesInertState : Obligations.StepNeverWritesInertState := by
  intro s t stepped
  rcases step_next_cases stepped with ⟨v, cycles, -, rfl⟩ | ⟨-, -, rfl⟩
  · exact sameInert_loadA_charge v cycles _
  · obtain ⟨-, -, -, sameInert⟩ := afterJsr_frame s
    exact sameInert

/-- Settles O27: a load stores nothing, and JSR to its stack slot only. -/
theorem onlyJsrStores : Obligations.OnlyJsrStores := by
  intro s t a stepped changed
  rcases step_next_cases stepped with ⟨v, cycles, -, rfl⟩ | ⟨opcode, -, rfl⟩
  · exact absurd rfl changed
  · refine ⟨opcode, ?_⟩
    by_contra outside
    obtain ⟨notLow, notHigh⟩ := not_or.mp outside
    exact changed (memRead_afterJsr_other notLow notHigh)

/-- Settles O28: a load moves PC past its two bytes, and JSR raises SP from below the last address. -/
theorem onlyJsrTransfersControl : Obligations.OnlyJsrTransfersControl := by
  intro s t stepped
  rcases step_next_cases stepped with ⟨v, cycles, load, rfl⟩ | ⟨opcode, inRange, rfl⟩
  · exact ⟨fun _ => ⟨rfl, rfl⟩, fun opcode => absurd opcode load.ne_jsr⟩
  · exact ⟨fun other => absurd opcode other, fun _ => toNat_afterJsr_SP inRange⟩

/-! ### Cycles and the budget -/

/-- Settles O29: the charge of each completed step and of each fault. -/
theorem stepChargesTableTotals : Obligations.StepChargesTableTotals := by
  refine ⟨fun s t stepped => ?_, fun s left opcode pc faulted => ?_, fun s left addr faulted => ?_,
    fun s left addr faulted => ?_⟩
  · rcases step_next_cases stepped with ⟨v, cycles, load, rfl⟩ | ⟨opcode, -, rfl⟩
    · rcases load with ⟨opcode, rfl⟩ | ⟨opcode, rfl⟩ | ⟨opcode, rfl⟩
      · exact .inl ⟨opcode, rfl⟩
      · exact .inr (.inl ⟨opcode, rfl⟩)
      · exact .inr (.inr (.inl ⟨opcode, rfl⟩))
    · exact .inr (.inr (.inr ⟨opcode, rfl⟩))
  all_goals
    rcases step_fault_cases faulted with ⟨-, -, kind⟩ | ⟨-, -, -, kind⟩ | ⟨-, kind⟩ <;> cases kind
    rfl

/-- A step's answer with `k` more cycles charged in the state it carries. -/
def chargeAnswer (k : Int) : Host.Outcome State Fault Refusal → Host.Outcome State Fault Refusal
  | .next t => .next (charge k t)
  | .fault (.addressingFault op addr left) => .fault (.addressingFault op addr (charge k left))
  | .fault (.decodeFault opcode pc left) => .fault (.decodeFault opcode pc (charge k left))
  | .refused r => .refused r

theorem charge_comm (j k : Int) (s : State) : charge j (charge k s) = charge k (charge j s) := by
  rw [charge_charge, charge_charge, Int.add_comm]

theorem afterJsr_charge (k : Int) (s : State) : afterJsr (charge k s) = charge k (afterJsr s) := by
  simp [afterJsr, charge, memWrite, memRead, sub_right_comm]

/-- R24: a charge before a step is the same charge after it, as no instruction looks at the budget. -/
theorem step_charge (k : Int) (s : State) : step (charge k s) = chargeAnswer k (step s) := by
  rcases step_cases s with
    ⟨opcode, result⟩ | ⟨opcode, result⟩ | ⟨opcode, result⟩ | ⟨opcode, notFFFE, inRange, result⟩ |
      ⟨opcode, atFFFE, result⟩ | ⟨opcode, notFFFE, stackTop, result⟩ | ⟨illegal, result⟩ <;>
    rw [result]
  · rw [step_ldaImm (s := charge k s) opcode, advancePC_charge, charge_comm]
    rfl
  · rw [step_ldaZp (s := charge k s) opcode, advancePC_charge, charge_comm]
    rfl
  · rw [step_ldaZpX (s := charge k s) opcode, advancePC_charge, charge_comm]
    rfl
  · rw [step_jsr (s := charge k s) opcode notFFFE inRange, afterJsr_charge]
    rfl
  · rw [step_jsr_fetchFault (s := charge k s) opcode atFFFE, advancePC_charge, charge_comm]
    rfl
  · rw [step_jsr_storeFault (s := charge k s) opcode notFFFE stackTop, advancePC_charge, charge_comm]
    rfl
  · rw [step_illegal (s := charge k s) illegal, advancePC_charge, charge_comm]
    rfl

/-- Another budget is a charge of the difference. -/
theorem setBudget_eq_charge (c : Int) (s : State) : { s with cyc := c } = charge (s.cyc - c) s := by
  simp [charge]

/-- Settles O30: to run with the budget `c` is to charge the difference before the step, which is to charge it after. -/
theorem budgetIsInvisible : Obligations.BudgetIsInvisible := by
  intro s c
  have shifted (t : State) : charge (s.cyc - c) t = { t with cyc := c - (s.cyc - t.cyc) } := by
    rw [charge, show t.cyc - (s.cyc - c) = c - (s.cyc - t.cyc) by omega]
  rw [setBudget_eq_charge, step_charge]
  refine ⟨fun t stepped => ?_, fun op addr left faulted => ?_, fun opcode pc left faulted => ?_⟩
  · rw [stepped, ← shifted]
    rfl
  · rw [faulted, ← shifted]
    rfl
  · rw [faulted, ← shifted]
    rfl

end Sys2Proof.Machine
end

section
/-! The family 'other', its runs: the canonical memory, the stack of a row of JSRs, what every state of a session keeps,
and the budget of `Execute`. -/

namespace Sys2Proof.Machine

open Sys2Proof.Safety

/-! ### Canonical memories (log entry 6) -/

/-- In a memory of rising addresses each entry is the one its address reads. -/
theorem Memory.read_of_mem {m : Memory} (rising : m.Pairwise (fun c d => c.1 < d.1)) {c : Host.Cell} (listed : c ∈ m) :
    m.read c.1 = c.2 := by
  induction m with
  | nil => cases listed
  | cons first rest ih =>
    obtain ⟨above, rising⟩ := List.pairwise_cons.mp rising
    rcases List.mem_cons.mp listed with rfl | listed
    · simp [Memory.read]
    · rw [Memory.read, if_neg (above c listed).ne, ih rising listed]

/-- What reads otherwise than an unlisted cell is listed. -/
theorem Memory.mem_of_read {m : Memory} {a : Nat} (nonzero : m.read a ≠ Memory.unlisted) : (a, m.read a) ∈ m := by
  induction m with
  | nil => exact absurd rfl nonzero
  | cons first rest ih =>
    by_cases here : first.1 = a
    · simp [Memory.read, ← here]
    · simp only [Memory.read, here, if_false] at nonzero ⊢
      exact List.mem_cons_of_mem _ (ih nonzero)

/-- The entries of a canonical memory are its bytes that are not 0x00. -/
theorem Memory.mem_iff_read {m : Memory} (canonical : m.wf) (c : Host.Cell) :
    c ∈ m ↔ m.read c.1 = c.2 ∧ c.2 ≠ Memory.unlisted := by
  obtain ⟨rising, legal⟩ := canonical
  refine ⟨fun listed => ⟨Memory.read_of_mem rising listed, (legal c listed).2⟩, ?_⟩
  rintro ⟨reads, nonzero⟩
  have listed : (c.1, m.read c.1) ∈ m := Memory.mem_of_read (reads ▸ nonzero)
  rwa [reads] at listed

/-- The entries of a canonical memory are listed in one order only. -/
theorem Memory.eq_of_same_entries {m n : Memory} (hm : m.wf) (hn : n.wf) (same : ∀ c, c ∈ m ↔ c ∈ n) : m = n := by
  have irreflexive : Std.Irrefl (fun c d : Host.Cell => c.1 < d.1) := ⟨fun c => lt_irrefl c.1⟩
  have antisymmetric : Std.Antisymm (fun c d : Host.Cell => c.1 < d.1) := ⟨fun _ _ h h' => absurd h' h.asymm⟩
  exact hm.1.eq_of_mem_iff hn.1 same

/-- Two states that read the same at every address have the same byte in every cell in range. -/
theorem read_eq_of_memRead_eq {s t : State} (same : ∀ a, memRead s a = memRead t a) {a : Nat}
    (inRange : a < Config.memCells) : s.mem.read a = t.mem.read a := by
  simpa [memRead, Nat.mod_eq_of_lt (show a < 65536 from inRange)] using same (BitVec.ofNat 16 a)

/-- An entry of one canonical memory is an entry of any other that reads the same. -/
theorem mem_of_memRead_eq {s t : State} (hs : s.mem.wf) (ht : t.mem.wf) (same : ∀ a, memRead s a = memRead t a)
    {c : Host.Cell} (listed : c ∈ s.mem) : c ∈ t.mem := by
  obtain ⟨reads, nonzero⟩ := (Memory.mem_iff_read hs c).mp listed
  obtain ⟨inRange, -⟩ := hs.2 c listed
  exact (Memory.mem_iff_read ht c).mpr ⟨(read_eq_of_memRead_eq same inRange).symm.trans reads, nonzero⟩

/-- Settles O35: the bytes determine the entries, and the rising addresses their order. -/
theorem canonicalMemoryIsUnique : Obligations.CanonicalMemoryIsUnique := fun _ _ hs ht same =>
  Memory.eq_of_same_entries hs ht fun _ =>
    ⟨mem_of_memRead_eq hs ht same, mem_of_memRead_eq ht hs fun a => (same a).symm⟩

/-! ### JSRs in a row (R127, R97) -/

/-- What a completed step at a JSR opcode reaches. -/
theorem eq_afterJsr_of_step_next {s t : State} (opcode : memRead s s.PC = 0x20#8) (stepped : step s = .next t) :
    s.SP ≠ 0xFFFF#16 ∧ t = afterJsr s := by
  rcases step_next_cases stepped with ⟨v, cycles, load, -⟩ | ⟨-, inRange, reached⟩
  · exact absurd opcode load.ne_jsr
  · exact ⟨inRange, reached⟩

theorem toNat_SP_of_jsrRun {s u : State} {addresses : List Word} (run : JsrRun s addresses u) :
    u.SP.toNat = s.SP.toNat + addresses.length := by
  induction run with
  | nil s => rfl
  | cons s t u rest opcode stepped run ih =>
    obtain ⟨inRange, rfl⟩ := eq_afterJsr_of_step_next opcode stepped
    rw [ih, toNat_afterJsr_SP inRange, List.length_cons]
    omega

/-- R127: the cells below SP keep their bytes through a row of JSRs. -/
theorem memRead_below_of_jsrRun {s u : State} {addresses : List Word} (run : JsrRun s addresses u) {a : Word}
    (below : a.toNat < s.SP.toNat) : memRead u a = memRead s a := by
  induction run with
  | nil s => rfl
  | cons s t u rest opcode stepped run ih =>
    obtain ⟨inRange, rfl⟩ := eq_afterJsr_of_step_next opcode stepped
    have stillBelow : a.toNat < (afterJsr s).SP.toNat := by
      rw [toNat_afterJsr_SP inRange]
      exact Nat.lt_succ_of_lt below
    rw [ih stillBelow, memRead_afterJsr_below inRange below]

/-- Each JSR leaves the low byte of its return address at the SP it found, and the later ones store above it. -/
theorem memRead_low_of_jsrRun {s u : State} {addresses : List Word} (run : JsrRun s addresses u) (k : Nat)
    (h : k < addresses.length) : memRead u (s.SP + BitVec.ofNat 16 k) = lowByte (addresses[k] + 2#16) := by
  induction run generalizing k with
  | nil s => simp at h
  | cons s t u rest opcode stepped run ih =>
    obtain ⟨inRange, rfl⟩ := eq_afterJsr_of_step_next opcode stepped
    cases k with
    | zero =>
      have below : s.SP.toNat < (afterJsr s).SP.toNat := by
        rw [toNat_afterJsr_SP inRange]
        exact Nat.lt_succ_self _
      have kept := memRead_below_of_jsrRun run below
      rw [memRead_afterJsr_low] at kept
      simpa using kept
    | succ k =>
      have slot : s.SP + BitVec.ofNat 16 (k + 1) = (afterJsr s).SP + BitVec.ofNat 16 k := by
        rw [afterJsr_SP, BitVec.add_assoc, BitVec.add_comm 1#16, BitVec.ofNat_add]
      rw [slot, ih k (Nat.lt_of_succ_lt_succ h), List.getElem_cons_succ]

/-- The last JSR leaves the high byte of its return address at the SP it ends with. -/
theorem memRead_high_of_jsrRun {s u : State} {addresses : List Word} (run : JsrRun s addresses u)
    (nonempty : addresses ≠ []) : memRead u u.SP = highByte (addresses.getLast nonempty + 2#16) := by
  induction run with
  | nil s => exact absurd rfl nonempty
  | cons s t u rest opcode stepped run ih =>
    cases rest with
    | nil =>
      obtain ⟨-, rfl⟩ := eq_afterJsr_of_step_next opcode stepped
      cases run
      rw [afterJsr_SP, memRead_afterJsr_high, List.getLast_singleton]
    | cons next others => rw [ih (List.cons_ne_nil _ _), List.getLast_cons_cons]

/-- Settles O33: each JSR overwrites only the high byte of the one before it. -/
theorem jsrRunStackLayout : Obligations.JsrRunStackLayout := by
  intro s u first others run
  refine ⟨toNat_SP_of_jsrRun run, fun k h => ?_, ?_⟩
  · rw [memRead_low_of_jsrRun run k h, lowByte_eq_ofNat]
  · rw [memRead_high_of_jsrRun run, highByte_eq_ofNat]

/-! ### The runs of `Execute` (R70) -/

/-- What `Execute` returns, by the last state of its loop: a predicate kept by every completed step that the budget allows
holds there, and the budget is spent or the next step faults. -/
theorem last_of_executeWithin {P : State → Prop}
    (kept : ∀ s t, P s → 0 < s.cyc → step s = .next t → P t) {limit : Nat} {s : State} {r : ExecuteResult}
    (start : P s) (returned : executeWithin limit s = some r) :
    ∃ u, P u ∧ ((¬ 0 < u.cyc ∧ r = returnExhausted u) ∨ ∃ f, step u = .fault f ∧ r = returnFault f) := by
  induction limit generalizing s with
  | zero =>
    by_cases running : 0 < s.cyc
    · rw [executeWithin_zero running] at returned
      cases returned
    · rw [executeWithin_exhausted running] at returned
      cases returned
      exact ⟨s, start, .inl ⟨running, rfl⟩⟩
  | succ limit ih =>
    by_cases running : 0 < s.cyc
    · rcases step_next_or_fault s with ⟨t, stepped, -⟩ | ⟨f, faulted⟩
      · rw [executeWithin_next running stepped] at returned
        exact ih (kept s t start running stepped) returned
      · rw [executeWithin_fault running faulted] at returned
        cases returned
        exact ⟨s, start, .inr ⟨f, faulted, rfl⟩⟩
    · rw [executeWithin_exhausted running] at returned
      cases returned
      exact ⟨s, start, .inl ⟨running, rfl⟩⟩

/-- R74: an instruction for every 2 cycles of the budget is enough for the loop to return. -/
theorem exists_executeWithin {limit : Nat} {s : State} (enough : s.cyc ≤ 2 * limit) :
    ∃ r, executeWithin limit s = some r := by
  induction limit generalizing s with
  | zero =>
    have spent : ¬ 0 < s.cyc := by omega
    exact ⟨_, executeWithin_exhausted spent 0⟩
  | succ limit ih =>
    by_cases running : 0 < s.cyc
    · rcases step_next_or_fault s with ⟨t, stepped, spent⟩ | ⟨f, faulted⟩
      · rw [executeWithin_next running stepped]
        exact ih (by omega)
      · exact ⟨_, executeWithin_fault running faulted limit⟩
    · exact ⟨_, executeWithin_exhausted running _⟩

/-- Settles O42: both the limit of `execute` and half the budget rounded up allow an instruction for every 2 cycles. -/
theorem executeAlwaysReturns : Obligations.ExecuteAlwaysReturns := by
  intro b s
  have enough : b ≤ 2 * ((b.toNat + 1) / 2 : Nat) := by omega
  obtain ⟨r, returned⟩ := exists_executeWithin (s := { s with cyc := b }) enough
  exact ⟨r, (execute_eq_executeWithin enough s).trans returned, returned⟩

/-- Settles O43: without budget the call returns at once, with the state it was given. -/
theorem executeWithoutBudget : Obligations.ExecuteWithoutBudget := by
  intro b s noBudget
  refine ⟨_, execute_exhausted (Int.not_lt.mpr noBudget) s, rfl, rfl, rfl, ?_, fun _ => rfl⟩
  simp [SameRegisters, SameInert]

/-- R77: `Execute` overwrites the budget before it reads it. -/
theorem execute_setBudget (b c : Int) (s : State) : execute b { s with cyc := c } = execute b s := rfl

/-- Settles O46: the budget in the state on entry is overwritten by the budget of the call. -/
theorem leftoverBudgetIsDropped : Obligations.LeftoverBudgetIsDropped := execute_setBudget

theorem execute_charge (b k : Int) (s : State) : execute b (charge k s) = execute b s := execute_setBudget b _ s

/-- R103: no fault is reported as an exhausted budget. -/
theorem faultOutcome_ne_budgetExhausted (f : Fault) : faultOutcome f ≠ .budgetExhausted := by
  cases f <;> exact nofun

/-- R128: no instruction takes more than the 6 cycles of JSR. -/
theorem cyc_le_of_step_next {s t : State} (stepped : step s = .next t) : s.cyc ≤ t.cyc + 6 := by
  rcases stepChargesTableTotals.1 s t stepped with ⟨-, cycles⟩ | ⟨-, cycles⟩ | ⟨-, cycles⟩ | ⟨-, cycles⟩ <;> omega

/-- R71: an instruction that the budget allows starts with at least 1 cycle, so it ends with at least -5. -/
theorem overrun_of_step_next (s t : State) (_ : -5 ≤ s.cyc) (running : 0 < s.cyc) (stepped : step s = .next t) :
    -5 ≤ t.cyc := by
  have cycles := cyc_le_of_step_next stepped
  omega

/-- Settles O44: the bound holds at every boundary of the loop; the JSR spends 6 cycles of a budget of 1. -/
theorem budgetOverrunBound : Obligations.BudgetOverrunBound := by
  refine ⟨fun b s r positive returned exhausted => ?_, fun s opcode notFFFE inRange => ?_⟩
  · have start : -5 ≤ ({ s with cyc := b } : State).cyc := Int.le_trans (by decide) positive
    obtain ⟨u, bound, ⟨spent, rfl⟩ | ⟨f, -, rfl⟩⟩ :=
      last_of_executeWithin (P := fun s => -5 ≤ s.cyc) overrun_of_step_next start returned
    · exact ⟨bound, Int.not_lt.mp spent⟩
    · exact absurd exhausted (faultOutcome_ne_budgetExhausted f)
  · have stepped : step { s with cyc := 1 } = .next (afterJsr { s with cyc := 1 }) := step_jsr opcode notFFFE inRange
    have overrun : (afterJsr { s with cyc := 1 }).cyc = -5 := rfl
    refine ⟨_, (execute_next (by decide) stepped).trans (execute_exhausted (by rw [overrun]; decide) _), rfl, overrun⟩

/-- R24, R70: one turn of the loop with `k` cycles more than the state holds goes on with `k` more than the step left. -/
theorem execute_add_next {k : Int} {s u : State} (running : 0 < s.cyc + k) (stepped : step s = .next u) :
    execute (s.cyc + k) s = execute (u.cyc + k) u := by
  have larger : { s with cyc := s.cyc + k } = charge (-k) s := by simp [charge]
  have stepped' : step { s with cyc := s.cyc + k } = .next (charge (-k) u) := by
    rw [larger, step_charge, stepped]
    rfl
  rw [execute_next running stepped', execute_charge, charge_cyc, Int.sub_neg]

/-- A run to an exhausted budget is the first part of the run with `k` cycles more. -/
theorem execute_add_of_exhausted {k : Int} (notLess : 0 ≤ k) {limit : Nat} {s t : State} {cyc : Int}
    (returned : executeWithin limit s = some ⟨.budgetExhausted, cyc, t⟩) :
    execute (s.cyc + k) s = execute (cyc + k) t := by
  obtain ⟨u, sameRun, ⟨-, last⟩ | ⟨f, -, last⟩⟩ :=
    last_of_executeWithin (P := fun u => execute (s.cyc + k) s = execute (u.cyc + k) u)
      (fun v u sameRun running stepped => sameRun.trans (execute_add_next (by omega) stepped)) rfl returned
  · cases last
    exact sameRun
  · exact absurd (congrArg ExecuteResult.outcome last).symm (faultOutcome_ne_budgetExhausted f)

/-- Settles O45: every turn of the shorter call is a turn of the longer one with `k` more cycles in hand. -/
theorem budgetSplits : Obligations.BudgetSplits := fun b _ _ s _ notLess returned =>
  execute_add_of_exhausted (s := { s with cyc := b }) notLess returned

/-! ### Sessions (R6, R104) -/

theorem recordFault_some (f outcome : ExecuteOutcome) : recordFault (some f) outcome = some f := rfl

/-- R100, R104: BudgetExhausted is no fault; the other outcomes are. -/
theorem recordFault_none (outcome : ExecuteOutcome) :
    recordFault none outcome = if outcome = .budgetExhausted then none else some outcome := by
  cases outcome <;> rfl

/-- Settles O47: `Execute` always returns, and what is recorded of its outcome depends on an earlier record alone. -/
theorem sessionRecordsFirstFault : Obligations.SessionRecordsFirstFault := by
  intro action h
  cases action with
  | write addr v => exact ⟨_, rfl, fun _ recorded => recorded, fun _ _ _ => nofun⟩
  | reset => exact ⟨_, rfl, fun _ recorded => recorded, fun _ _ _ => nofun⟩
  | execute budget =>
    obtain ⟨r, returned, -⟩ := executeAlwaysReturns budget h.core
    refine ⟨⟨r.state, some (r.outcome, r.cyc), recordFault h.firstFault r.outcome⟩, ?_, ?_, ?_⟩
    · rw [hostAct, returned, Option.map_some]
    · intro f recorded
      rw [recorded, recordFault_some]
    · rintro unrecorded _ r' ⟨⟩ returned'
      cases returned.symm.trans returned'
      exact ⟨rfl, by rw [unrecorded, recordFault_none]⟩

/-- The invariants of O38 and O39. -/
def MeetsInvariants (s : State) : Prop := InertClear s ∧ StackAboveBase s ∧ FlagsDisjoint s ∧ s.mem.wf

theorem meetsInvariants_resetCore (s : State) : MeetsInvariants (resetCore s) :=
  ⟨by simp [InertClear], by rw [StackAboveBase, resetCore_SP], by simp [FlagsDisjoint], Memory.wf_nil⟩

/-- Settles O38: the reset state is what `Reset` leaves of itself. -/
theorem resetMeetsInvariants : Obligations.ResetMeetsInvariants := by
  obtain ⟨inert, stack, flags, memory⟩ := meetsInvariants_resetCore State.reset
  exact ⟨memory, stack, flags, inert⟩

theorem inertClear_of_sameInert {s t : State} (same : SameInert s t) (clear : InertClear s) : InertClear t := by
  obtain ⟨hX, hY, hC, hI, hD, hB, hV⟩ := same
  simpa only [InertClear, hX, hY, hC, hI, hD, hB, hV] using clear

/-- The invariants speak of neither PC nor the budget. -/
theorem meetsInvariants_charge_advancePC (k : Int) (n : Word) (s : State) :
    MeetsInvariants (charge k (advancePC n s)) ↔ MeetsInvariants s := Iff.rfl

theorem meetsInvariants_setBudget (b : Int) (s : State) :
    MeetsInvariants { s with cyc := b } ↔ MeetsInvariants s := Iff.rfl

theorem meetsInvariants_memWrite {s : State} (met : MeetsInvariants s) (addr : Word) (v : Byte) :
    MeetsInvariants (memWrite addr v s) := by
  obtain ⟨inert, stack, flags, memory⟩ := met
  exact ⟨inert, stack, flags, memWrite_wf memory addr v⟩

theorem meetsInvariants_of_step_next {s t : State} (met : MeetsInvariants s) (stepped : step s = .next t) :
    MeetsInvariants t := by
  obtain ⟨inert, stack, flags, memory⟩ := met
  exact ⟨inertClear_of_sameInert (stepNeverWritesInertState s t stepped) inert,
    stackAboveBase_of_step_next stack stepped, flagsDisjoint_of_step_next flags stepped, wf_of_step_next memory stepped⟩

theorem meetsInvariants_of_step_fault {s : State} {f : Fault} (met : MeetsInvariants s) (faulted : step s = .fault f) :
    MeetsInvariants (faultLeft f) := by
  obtain ⟨k, n, left⟩ := faultLeft_of_step_fault faulted
  rw [left, meetsInvariants_charge_advancePC]
  exact met

theorem meetsInvariants_of_execute {b : Int} {s : State} {r : ExecuteResult} (met : MeetsInvariants s)
    (returned : execute b s = some r) : MeetsInvariants r.state := by
  obtain ⟨u, met, ⟨-, rfl⟩ | ⟨f, faulted, rfl⟩⟩ :=
    last_of_executeWithin (fun _ _ met _ => meetsInvariants_of_step_next met)
      ((meetsInvariants_setBudget b s).mpr met) returned
  · exact met
  · exact meetsInvariants_of_step_fault met faulted

/-- Settles O39: the invariants hold after any `Reset`, and each move of the host keeps them. -/
theorem reachableStatesMeetInvariants : Obligations.ReachableStatesMeetInvariants := by
  intro s reachable
  change MeetsInvariants s
  induction reachable with
  | reset s => exact meetsInvariants_resetCore s
  | write s addr v _ met => exact meetsInvariants_memWrite met addr v
  | execute s b r _ returned met => exact meetsInvariants_of_execute met returned

end Sys2Proof.Machine
end
